-- ==== Sys2Proof/Word.lean ====
section
/-! DEFINITION. The word types of the ZX16 CORE (00_scope.md R7, R11; 20_memory.md R51). -/

namespace Sys2Proof

/-- A `u16`: a register value, a data value, an instruction word, the PC (R7, R11). -/
abbrev Word := BitVec 16

/-- A `u8`: what one memory address holds (R51). -/
abbrev Byte := BitVec 8

end Sys2Proof
end

