-- ==== Sys2Proof/Config.lean ====
section
/-! DEFINITION. The named parameters of 00_scope.md R8, the records of the ECALL dispatch port (48_sys.md), and the one
free value of the model. -/

namespace Sys2Proof

/-- `ea_carry_policy` (20_memory.md R70): what a load or store does when base + offset leaves 0 .. 0xFFFF. -/
inductive EaCarryPolicy where
  | wrap
  | fault
deriving DecidableEq, Repr, Inhabited

/-- The services the spec names (48_sys.md R259). The table is extensible: `other k` is a host service the spec does not
name. Only the service at `svc_exit` has a behaviour in the CORE (R260); every other is the oracle's (R253, R259). -/
inductive Service where
  | readString
  | readInteger
  | printString
  | playTone
  | setVolume
  | stopAudio
  | readKeyboard
  | registerDump
  | memoryDump
  | programExit
  | printInteger
  | other (k : Nat)
deriving DecidableEq, Repr, Inhabited

/-- The named parameters a step reads (00_scope.md R8). Log 1: they are held in State and no step writes them.
`imageLen` is `image_len`, the byte length of the image loaded at reset (70_reset_and_hazards.md R304). `svcExit` and
`svcPrintInt` are the numbers `svc_exit` and `svc_print_int`, the latter OPEN while none; `svcTable` holds the other rows of
`svc_table`, its first entry for a number counting (48_sys.md R259; `serviceAt` is the whole map). -/
structure Params where
  spResetValue   : Word
  eaCarryPolicy  : EaCarryPolicy
  endOfImageStop : Bool
  imageLen       : Nat
  svcExit        : BitVec 10
  svcPrintInt    : Option (BitVec 10)
  svcTable       : List (BitVec 10 × Service)
deriving DecidableEq, Repr, Inhabited

/-- One access a service makes to memory through the memory contract (48_sys.md R258). The address is an integer, since
a host access may lie outside the space (60_exceptions.md R271). -/
inductive ServiceAccess where
  | load8 (addr : Int)
  | load16 (addr : Int)
  | store8 (addr : Int) (val : Byte)
  | store16 (addr : Int) (val : Word)
deriving DecidableEq, Repr, Inhabited

/-- The result record of a service, "{success, return value to store in the designated return register, halt flag,
optional diagnostic}" (48_sys.md R253), with the memory accesses it made, in order (R258; log 7). -/
structure ServiceResult where
  success  : Bool
  ret      : Option Word
  halt     : Bool
  diag     : Option String
  accesses : List ServiceAccess
deriving DecidableEq, Repr, Inhabited

/-- What the host does with one service call: it returns a result, or never returns (48_sys.md R253;
93_implementation_defined.md I5). -/
inductive ServiceReply where
  | returns (r : ServiceResult)
  | neverReturns
deriving DecidableEq, Repr, Inhabited

/-- FREE VALUE (48_sys.md R253: "What a service returns is a draw"; log 5). The reply to the service call numbered by the
first argument, given the service, its number, a0, a1 and the memory. It has no body, so nothing can be proved of a reply. -/
opaque Config.freeReply : Nat → Service → BitVec 10 → Word → Word → List Host.Cell → ServiceReply

end Sys2Proof
end

