-- ==== Sys2Proof/Machine/Defaults.lean ====
section
/-! DEFINITION. The default values of the named parameters (00_scope.md R8; logs 2 and 3) and the views of `svc_table`. -/

namespace Sys2Proof.Machine

/-- The numbered rows of 48_sys.md R259 but for `svc_exit`, from general knowledge (log 3). -/
def defaultSvcTable : List (BitVec 10 × Service) :=
  [(1#10, .readString), (2#10, .readInteger), (3#10, .printString), (4#10, .playTone), (5#10, .setVolume),
   (6#10, .stopAudio), (7#10, .readKeyboard), (8#10, .registerDump), (9#10, .memoryDump)]

/-- The defaults of 00_scope.md R8, with no image loaded (log 2). `svc_exit` is 10 (log 3); `svc_print_int` is OPEN. -/
def defaultParams : Params :=
  { spResetValue := 0x0000#16
    eaCarryPolicy := .wrap
    endOfImageStop := true
    imageLen := 0
    svcExit := 10#10
    svcPrintInt := none
    svcTable := defaultSvcTable }

/-- The first entry of a table for a number, if any. -/
def lookupService : List (BitVec 10 × Service) → BitVec 10 → Option Service
  | [], _ => none
  | (n, k) :: rest, svc => if n = svc then some k else lookupService rest svc

/-- The partial map `svc_table` as ECALL asks it (48_sys.md R251, R259): the row `svc_exit`, the row `svc_print_int` where it
has a number, and the other rows, the first of these that names the number (log 22); none when the number is not in it. -/
def serviceAt (p : Params) (svc : BitVec 10) : Option Service :=
  if svc = p.svcExit then some .programExit
  else if p.svcPrintInt = some svc then some .printInteger
  else lookupService p.svcTable svc

end Sys2Proof.Machine
end

