-- ==== Sys2Proof/Syntax.lean ====
section
/-! DEFINITION. The syntax of the ZX16 CORE: one constructor per row of spec/opcode_table.json. An operand is the raw field
of the word, so a value no word can spell cannot be written; fields no rule reads are kept (30_encoding.md R107; log 15). -/

namespace Sys2Proof

/-- The general registers x0 to x7 (10_state.md R20). None is hardwired (R21). -/
inductive Reg where
  | x0 | x1 | x2 | x3 | x4 | x5 | x6 | x7
deriving DecidableEq, Repr, Inhabited

/-- The eight instruction formats (30_encoding.md R81). -/
inductive Format where
  | r | i | b | s | l | j | u | sys
deriving DecidableEq, Repr, Inhabited

/-- The instructions. `rd` is also the first source in the two-operand R and I formats (30_encoding.md R82, R83).
`imm` is the raw immediate field of the format (R91 to R96), `ignored` a field that no rule reads (R107). -/
inductive Instr where
  /-- NOP, the single word 0x0000 (41_r_type.md R155). -/
  | nop
  /-- ADD (41_r_type.md R142). -/
  | add (rd rs2 : Reg)
  /-- SUB (41_r_type.md R143). -/
  | sub (rd rs2 : Reg)
  /-- SLT (41_r_type.md R144). -/
  | slt (rd rs2 : Reg)
  /-- SLTU (41_r_type.md R145). -/
  | sltu (rd rs2 : Reg)
  /-- SLL (41_r_type.md R146). -/
  | sll (rd rs2 : Reg)
  /-- SRL (41_r_type.md R147). -/
  | srl (rd rs2 : Reg)
  /-- SRA (41_r_type.md R148). -/
  | sra (rd rs2 : Reg)
  /-- OR (41_r_type.md R149). -/
  | or (rd rs2 : Reg)
  /-- AND (41_r_type.md R150). -/
  | and (rd rs2 : Reg)
  /-- XOR (41_r_type.md R151). -/
  | xor (rd rs2 : Reg)
  /-- MV (41_r_type.md R152). -/
  | mv (rd rs2 : Reg)
  /-- JR: the target register is in the rd slot; bits 11:9 are ignored (R153). -/
  | jr (rd : Reg) (ignored : BitVec 3)
  /-- JALR: link in rd, target in rs2 (R154). -/
  | jalr (rd rs2 : Reg)
  /-- ADDI, bits 15:9 (42_i_type.md R171). -/
  | addi (rd : Reg) (imm : BitVec 7)
  /-- SLTI, bits 15:9 (42_i_type.md R172). -/
  | slti (rd : Reg) (imm : BitVec 7)
  /-- SLTUI, bits 15:9 (42_i_type.md R173). -/
  | sltui (rd : Reg) (imm : BitVec 7)
  /-- SLLI, amount in bits 12:9 (42_i_type.md R174). -/
  | slli (rd : Reg) (shamt : BitVec 4)
  /-- SRLI, amount in bits 12:9 (42_i_type.md R175). -/
  | srli (rd : Reg) (shamt : BitVec 4)
  /-- SRAI, amount in bits 12:9 (42_i_type.md R176). -/
  | srai (rd : Reg) (shamt : BitVec 4)
  /-- ORI, bits 15:9 (42_i_type.md R177). -/
  | ori (rd : Reg) (imm : BitVec 7)
  /-- ANDI, bits 15:9 (42_i_type.md R178). -/
  | andi (rd : Reg) (imm : BitVec 7)
  /-- XORI, bits 15:9 (42_i_type.md R179). -/
  | xori (rd : Reg) (imm : BitVec 7)
  /-- LI, bits 15:9 (42_i_type.md R180). -/
  | li (rd : Reg) (imm : BitVec 7)
  /-- BEQ, imm[4:1] in bits 15:12 (43_b_type.md R192). -/
  | beq (rs1 rs2 : Reg) (imm : BitVec 4)
  /-- BNE, imm[4:1] in bits 15:12 (43_b_type.md R193). -/
  | bne (rs1 rs2 : Reg) (imm : BitVec 4)
  /-- BZ, imm[4:1] in bits 15:12, bits 11:9 ignored (43_b_type.md R194). -/
  | bz (rs1 : Reg) (ignored : BitVec 3) (imm : BitVec 4)
  /-- BNZ, imm[4:1] in bits 15:12, bits 11:9 ignored (43_b_type.md R195). -/
  | bnz (rs1 : Reg) (ignored : BitVec 3) (imm : BitVec 4)
  /-- BLT, imm[4:1] in bits 15:12 (43_b_type.md R196). -/
  | blt (rs1 rs2 : Reg) (imm : BitVec 4)
  /-- BGE, imm[4:1] in bits 15:12 (43_b_type.md R197). -/
  | bge (rs1 rs2 : Reg) (imm : BitVec 4)
  /-- BLTU, imm[4:1] in bits 15:12 (43_b_type.md R198). -/
  | bltu (rs1 rs2 : Reg) (imm : BitVec 4)
  /-- BGEU, imm[4:1] in bits 15:12 (43_b_type.md R199). -/
  | bgeu (rs1 rs2 : Reg) (imm : BitVec 4)
  /-- SB: base rs1, data rs2 (44_s_type.md R211). -/
  | sb (rs1 rs2 : Reg) (imm : BitVec 4)
  /-- SW: base rs1, data rs2 (44_s_type.md R212). -/
  | sw (rs1 rs2 : Reg) (imm : BitVec 4)
  /-- LB: base rs2 (45_l_type.md R221). -/
  | lb (rd rs2 : Reg) (imm : BitVec 4)
  /-- LW: base rs2 (45_l_type.md R222). -/
  | lw (rd rs2 : Reg) (imm : BitVec 4)
  /-- LBU: base rs2 (45_l_type.md R223). -/
  | lbu (rd rs2 : Reg) (imm : BitVec 4)
  /-- J: imm[9:1] in bits 14:9 and 5:3, bits 8:6 ignored (46_j_type.md R231). -/
  | j (ignored : BitVec 3) (imm : BitVec 9)
  /-- JAL: imm[9:1] in bits 14:9 and 5:3 (46_j_type.md R232). -/
  | jal (rd : Reg) (imm : BitVec 9)
  /-- LUI: imm[15:7] in bits 14:9 and 5:3 (47_u_type.md R241). -/
  | lui (rd : Reg) (imm : BitVec 9)
  /-- AUIPC: imm[15:7] in bits 14:9 and 5:3 (47_u_type.md R242). -/
  | auipc (rd : Reg) (imm : BitVec 9)
  /-- ECALL: service number in bits 15:6 (48_sys.md R250). -/
  | ecall (svc : BitVec 10)
deriving DecidableEq, Repr, Inhabited

end Sys2Proof
end

