-- ==== Sys2Proof/WellFormed.lean ====
section
/-! DEFINITION. Which terms of `Instr` stand for an instruction word. -/

namespace Sys2Proof

/-- The one check: `ADD x0, x0` is no instruction, since its word 0x0000 is NOP (30_encoding.md R104; log 14). Every other
term has a word of its own: each operand field has exactly the width the format gives it. -/
def Instr.wellFormed : Instr → Bool
  | .add .x0 .x0 => false
  | _ => true

end Sys2Proof
end

