-- ==== Sys2Proof/Decode.lean ====
section
/-! DEFINITION. The decoder (30_encoding.md R105), total and pure, and the encoder, from the same tables (R82 to R89,
R97 to R104). The field values of R97 to R102 are the spec's, from general knowledge (log 4). -/

namespace Sys2Proof

/-- The field of `len` bits of `w` whose lowest bit is `lo`: `w[lo + len - 1 : lo]` (00_scope.md R9). -/
def field (w : Word) (lo len : Nat) : BitVec len := w.extractLsb' lo len

/-- A register named by a 3-bit field (10_state.md R20). -/
def Reg.ofBits (f : BitVec 3) : Reg :=
  match f.toNat with
  | 0 => .x0
  | 1 => .x1
  | 2 => .x2
  | 3 => .x3
  | 4 => .x4
  | 5 => .x5
  | 6 => .x6
  | _ => .x7

/-- The 3-bit field that names a register. -/
def Reg.toBits : Reg → BitVec 3
  | .x0 => 0#3
  | .x1 => 1#3
  | .x2 => 2#3
  | .x3 => 3#3
  | .x4 => 4#3
  | .x5 => 5#3
  | .x6 => 6#3
  | .x7 => 7#3

/-- Why a word is UNKNOWN: the row of 30_encoding.md R106 it falls under, or bytes that do not make a word. -/
inductive Reject where
  /-- Opcode 000, (funct4, funct3) is no row of R97. -/
  | unknownR
  /-- Opcode 001, funct3 = 011 and the shift selector is no row of R98. -/
  | unknownI
  /-- Opcode 011, funct3 is no row of R100. -/
  | unknownS
  /-- Opcode 100, funct3 is no row of R101. -/
  | unknownL
  /-- Opcode 111, funct3 is not 000 (R103). -/
  | unknownSys
  /-- Fewer than two bytes: no whole word (R80). No word is rejected so. -/
  | truncated
deriving DecidableEq, Repr, Inhabited

/-- What the decoder answers: an instruction, or UNKNOWN with its reason (R105; log 13). -/
inductive Decoded where
  | instr (i : Instr)
  | unknown (why : Reject)
deriving DecidableEq, Repr, Inhabited

/-- R97: (funct4, funct3) selects the R-format operation. -/
def decodeR (f4 : BitVec 4) (f3 : BitVec 3) (a b : BitVec 3) : Decoded :=
  match f4.toNat, f3.toNat with
  | 0b0000, 0b000 => .instr (.add (.ofBits a) (.ofBits b))
  | 0b0001, 0b000 => .instr (.sub (.ofBits a) (.ofBits b))
  | 0b0010, 0b001 => .instr (.slt (.ofBits a) (.ofBits b))
  | 0b0011, 0b010 => .instr (.sltu (.ofBits a) (.ofBits b))
  | 0b0100, 0b011 => .instr (.sll (.ofBits a) (.ofBits b))
  | 0b0101, 0b011 => .instr (.srl (.ofBits a) (.ofBits b))
  | 0b0110, 0b011 => .instr (.sra (.ofBits a) (.ofBits b))
  | 0b0111, 0b100 => .instr (.or (.ofBits a) (.ofBits b))
  | 0b1000, 0b101 => .instr (.and (.ofBits a) (.ofBits b))
  | 0b1001, 0b110 => .instr (.xor (.ofBits a) (.ofBits b))
  | 0b1010, 0b111 => .instr (.mv (.ofBits a) (.ofBits b))
  | 0b1011, 0b000 => .instr (.jr (.ofBits a) b)
  | 0b1100, 0b000 => .instr (.jalr (.ofBits a) (.ofBits b))
  | _, _ => .unknown .unknownR

/-- R98: the shift selector `w[15:13]` under funct3 = 011. -/
def decodeShift (sel : BitVec 3) (a : BitVec 3) (shamt : BitVec 4) : Decoded :=
  match sel.toNat with
  | 0b001 => .instr (.slli (.ofBits a) shamt)
  | 0b010 => .instr (.srli (.ofBits a) shamt)
  | 0b100 => .instr (.srai (.ofBits a) shamt)
  | _ => .unknown .unknownI

/-- R98: funct3 selects the I-format operation; `imm7` is `w[15:9]`, `sel` `w[15:13]` and `shamt` `w[12:9]`. -/
def decodeI (f3 : BitVec 3) (a : BitVec 3) (imm7 : BitVec 7) (sel : BitVec 3) (shamt : BitVec 4) : Decoded :=
  match f3.toNat with
  | 0b000 => .instr (.addi (.ofBits a) imm7)
  | 0b001 => .instr (.slti (.ofBits a) imm7)
  | 0b010 => .instr (.sltui (.ofBits a) imm7)
  | 0b011 => decodeShift sel a shamt
  | 0b100 => .instr (.ori (.ofBits a) imm7)
  | 0b101 => .instr (.andi (.ofBits a) imm7)
  | 0b110 => .instr (.xori (.ofBits a) imm7)
  | _ => .instr (.li (.ofBits a) imm7)

/-- R99: funct3 selects the branch; all eight values are used. -/
def decodeB (f3 : BitVec 3) (a b : BitVec 3) (imm4 : BitVec 4) : Decoded :=
  match f3.toNat with
  | 0b000 => .instr (.beq (.ofBits a) (.ofBits b) imm4)
  | 0b001 => .instr (.bne (.ofBits a) (.ofBits b) imm4)
  | 0b010 => .instr (.bz (.ofBits a) b imm4)
  | 0b011 => .instr (.bnz (.ofBits a) b imm4)
  | 0b100 => .instr (.blt (.ofBits a) (.ofBits b) imm4)
  | 0b101 => .instr (.bge (.ofBits a) (.ofBits b) imm4)
  | 0b110 => .instr (.bltu (.ofBits a) (.ofBits b) imm4)
  | _ => .instr (.bgeu (.ofBits a) (.ofBits b) imm4)

/-- R100: funct3 selects the store. -/
def decodeS (f3 : BitVec 3) (a b : BitVec 3) (imm4 : BitVec 4) : Decoded :=
  match f3.toNat with
  | 0b000 => .instr (.sb (.ofBits a) (.ofBits b) imm4)
  | 0b001 => .instr (.sw (.ofBits a) (.ofBits b) imm4)
  | _ => .unknown .unknownS

/-- R101: funct3 selects the load. -/
def decodeL (f3 : BitVec 3) (a b : BitVec 3) (imm4 : BitVec 4) : Decoded :=
  match f3.toNat with
  | 0b000 => .instr (.lb (.ofBits a) (.ofBits b) imm4)
  | 0b001 => .instr (.lw (.ofBits a) (.ofBits b) imm4)
  | 0b100 => .instr (.lbu (.ofBits a) (.ofBits b) imm4)
  | _ => .unknown .unknownL

/-- R102: bit 15 is 1 for JAL, 0 for J. `imm9` is `w[14:9] ++ w[5:3]` (R95). -/
def decodeJ (sel : BitVec 1) (a : BitVec 3) (imm9 : BitVec 9) : Decoded :=
  match sel.toNat with
  | 0 => .instr (.j a imm9)
  | _ => .instr (.jal (.ofBits a) imm9)

/-- R102: bit 15 is 1 for AUIPC, 0 for LUI. `imm9` is `w[14:9] ++ w[5:3]` (R96). -/
def decodeU (sel : BitVec 1) (a : BitVec 3) (imm9 : BitVec 9) : Decoded :=
  match sel.toNat with
  | 0 => .instr (.lui (.ofBits a) imm9)
  | _ => .instr (.auipc (.ofBits a) imm9)

/-- R103: funct3 = 000 is ECALL; every other SYS word is UNKNOWN. -/
def decodeSys (f3 : BitVec 3) (svc : BitVec 10) : Decoded :=
  match f3.toNat with
  | 0b000 => .instr (.ecall svc)
  | _ => .unknown .unknownSys

/-- The format case of `Decode(w)` (R105), by the opcode `w[2:0]` (R81). -/
def decodeFormat (w : Word) : Decoded :=
  match (field w 0 3).toNat with
  | 0b000 => decodeR (field w 12 4) (field w 3 3) (field w 6 3) (field w 9 3)
  | 0b001 => decodeI (field w 3 3) (field w 6 3) (field w 9 7) (field w 13 3) (field w 9 4)
  | 0b010 => decodeB (field w 3 3) (field w 6 3) (field w 9 3) (field w 12 4)
  | 0b011 => decodeS (field w 3 3) (field w 6 3) (field w 9 3) (field w 12 4)
  | 0b100 => decodeL (field w 3 3) (field w 6 3) (field w 9 3) (field w 12 4)
  | 0b101 => decodeJ (field w 15 1) (field w 6 3) (field w 9 6 ++ field w 3 3)
  | 0b110 => decodeU (field w 15 1) (field w 6 3) (field w 9 6 ++ field w 3 3)
  | _ => decodeSys (field w 3 3) (field w 6 10)

/-- `Decode(w)` of 30_encoding.md R105: the NOP word ahead of everything (R104), then the format case. -/
def decode (w : Word) : Decoded := if w = 0x0000#16 then .instr .nop else decodeFormat w

/-- A 16-bit word from its two bytes, low byte first (20_memory.md R54, R60). -/
def wordOfBytes (lo hi : Byte) : Word := hi ++ lo

/-- `w[7:0]`, the byte at the lower address (R55, R60). -/
def lowByte (w : Word) : Byte := w.extractLsb' 0 8

/-- `w[15:8]`, the byte at the higher address (R55, R60). -/
def highByte (w : Word) : Byte := w.extractLsb' 8 8

/-- The decoder on any bytes: the instruction and the bytes after it (one word each, R80), or the reason there is none. -/
def decodeBytes : List Byte → Decoded × List Byte
  | lo :: hi :: rest => (decode (wordOfBytes lo hi), rest)
  | short => (.unknown .truncated, short)

/-- An R word from its fields (R82). -/
def encR (f4 : BitVec 4) (b a f3 : BitVec 3) : Word := f4 ++ b ++ a ++ f3 ++ 0b000#3

/-- A non-shift I word from its fields (R83). -/
def encI (imm : BitVec 7) (a f3 : BitVec 3) : Word := imm ++ a ++ f3 ++ 0b001#3

/-- A shift I word from its fields (R83). -/
def encShift (sel : BitVec 3) (shamt : BitVec 4) (a : BitVec 3) : Word := sel ++ shamt ++ a ++ 0b011#3 ++ 0b001#3

/-- A B, S or L word from its fields (R84 to R86): the three formats have one layout. -/
def encBSL (imm : BitVec 4) (b a f3 op : BitVec 3) : Word := imm ++ b ++ a ++ f3 ++ op

/-- A J or U word from its fields (R87, R88): the high 6 immediate bits are `w[14:9]`, the low 3 `w[5:3]`. -/
def encJU (sel : BitVec 1) (imm : BitVec 9) (a op : BitVec 3) : Word :=
  sel ++ imm.extractLsb' 3 6 ++ a ++ imm.extractLsb' 0 3 ++ op

/-- A SYS word from its fields (R89). -/
def encSys (svc : BitVec 10) (f3 : BitVec 3) : Word := svc ++ f3 ++ 0b111#3

/-- The word of an instruction, from the layouts of R82 to R89 and the tables of R97 to R104. -/
def encode : Instr → Word
  | .nop => 0x0000#16
  | .add rd rs2 => encR 0b0000#4 rs2.toBits rd.toBits 0b000#3
  | .sub rd rs2 => encR 0b0001#4 rs2.toBits rd.toBits 0b000#3
  | .slt rd rs2 => encR 0b0010#4 rs2.toBits rd.toBits 0b001#3
  | .sltu rd rs2 => encR 0b0011#4 rs2.toBits rd.toBits 0b010#3
  | .sll rd rs2 => encR 0b0100#4 rs2.toBits rd.toBits 0b011#3
  | .srl rd rs2 => encR 0b0101#4 rs2.toBits rd.toBits 0b011#3
  | .sra rd rs2 => encR 0b0110#4 rs2.toBits rd.toBits 0b011#3
  | .or rd rs2 => encR 0b0111#4 rs2.toBits rd.toBits 0b100#3
  | .and rd rs2 => encR 0b1000#4 rs2.toBits rd.toBits 0b101#3
  | .xor rd rs2 => encR 0b1001#4 rs2.toBits rd.toBits 0b110#3
  | .mv rd rs2 => encR 0b1010#4 rs2.toBits rd.toBits 0b111#3
  | .jr rd ignored => encR 0b1011#4 ignored rd.toBits 0b000#3
  | .jalr rd rs2 => encR 0b1100#4 rs2.toBits rd.toBits 0b000#3
  | .addi rd imm => encI imm rd.toBits 0b000#3
  | .slti rd imm => encI imm rd.toBits 0b001#3
  | .sltui rd imm => encI imm rd.toBits 0b010#3
  | .slli rd shamt => encShift 0b001#3 shamt rd.toBits
  | .srli rd shamt => encShift 0b010#3 shamt rd.toBits
  | .srai rd shamt => encShift 0b100#3 shamt rd.toBits
  | .ori rd imm => encI imm rd.toBits 0b100#3
  | .andi rd imm => encI imm rd.toBits 0b101#3
  | .xori rd imm => encI imm rd.toBits 0b110#3
  | .li rd imm => encI imm rd.toBits 0b111#3
  | .beq rs1 rs2 imm => encBSL imm rs2.toBits rs1.toBits 0b000#3 0b010#3
  | .bne rs1 rs2 imm => encBSL imm rs2.toBits rs1.toBits 0b001#3 0b010#3
  | .bz rs1 ignored imm => encBSL imm ignored rs1.toBits 0b010#3 0b010#3
  | .bnz rs1 ignored imm => encBSL imm ignored rs1.toBits 0b011#3 0b010#3
  | .blt rs1 rs2 imm => encBSL imm rs2.toBits rs1.toBits 0b100#3 0b010#3
  | .bge rs1 rs2 imm => encBSL imm rs2.toBits rs1.toBits 0b101#3 0b010#3
  | .bltu rs1 rs2 imm => encBSL imm rs2.toBits rs1.toBits 0b110#3 0b010#3
  | .bgeu rs1 rs2 imm => encBSL imm rs2.toBits rs1.toBits 0b111#3 0b010#3
  | .sb rs1 rs2 imm => encBSL imm rs2.toBits rs1.toBits 0b000#3 0b011#3
  | .sw rs1 rs2 imm => encBSL imm rs2.toBits rs1.toBits 0b001#3 0b011#3
  | .lb rd rs2 imm => encBSL imm rs2.toBits rd.toBits 0b000#3 0b100#3
  | .lw rd rs2 imm => encBSL imm rs2.toBits rd.toBits 0b001#3 0b100#3
  | .lbu rd rs2 imm => encBSL imm rs2.toBits rd.toBits 0b100#3 0b100#3
  | .j ignored imm => encJU 0b0#1 imm ignored 0b101#3
  | .jal rd imm => encJU 0b1#1 imm rd.toBits 0b101#3
  | .lui rd imm => encJU 0b0#1 imm rd.toBits 0b110#3
  | .auipc rd imm => encJU 0b1#1 imm rd.toBits 0b110#3
  | .ecall svc => encSys svc 0b000#3

/-- The bytes of a word as memory holds them, low byte first (20_memory.md R60). -/
def bytesOfWord (w : Word) : List Byte := [lowByte w, highByte w]

/-- The word that a number's low `nbits` bits make, the bits above them zero. -/
def tableWord (nbits w : Nat) : Word := BitVec.ofNat 16 (w % 2 ^ nbits)

/-- The instruction the decoder reads from an instruction whose bits are `w`, laid out in memory order. -/
def decodeTableWord (nbits w : Nat) : Option Instr :=
  match (decodeBytes (bytesOfWord (tableWord nbits w))).1 with
  | .instr i => some i
  | .unknown _ => none

/-- The format of an instruction (30_encoding.md R81, R97 to R104). -/
def Instr.format : Instr → Format
  | .nop | .add _ _ | .sub _ _ | .slt _ _ | .sltu _ _ | .sll _ _ | .srl _ _ | .sra _ _ | .or _ _ | .and _ _ | .xor _ _
  | .mv _ _ | .jr _ _ | .jalr _ _ => .r
  | .addi _ _ | .slti _ _ | .sltui _ _ | .slli _ _ | .srli _ _ | .srai _ _ | .ori _ _ | .andi _ _ | .xori _ _
  | .li _ _ => .i
  | .beq _ _ _ | .bne _ _ _ | .bz _ _ _ | .bnz _ _ _ | .blt _ _ _ | .bge _ _ _ | .bltu _ _ _ | .bgeu _ _ _ => .b
  | .sb _ _ _ | .sw _ _ _ => .s
  | .lb _ _ _ | .lw _ _ _ | .lbu _ _ _ => .l
  | .j _ _ | .jal _ _ => .j
  | .lui _ _ | .auipc _ _ => .u
  | .ecall _ => .sys

/-- The opcode `w[2:0]` that selects a format (R81). -/
def Format.opcode : Format → BitVec 3
  | .r => 0b000#3
  | .i => 0b001#3
  | .b => 0b010#3
  | .s => 0b011#3
  | .l => 0b100#3
  | .j => 0b101#3
  | .u => 0b110#3
  | .sys => 0b111#3

end Sys2Proof
end

