-- ==== Sys2Proof/Machine/Memory.lean ====
section
/-! DEFINITION. The memory of 20_memory.md: 65536 bytes, held as the list of the bytes that differ from the reset value, and
the memory contract of R52 to R56, the single enforcement point of bounds and alignment (R59). -/

namespace Sys2Proof.Machine

/-- The bytes that are not 0x00, by rising address. -/
abbrev Memory := List Host.Cell

/-- What an unlisted address reads as: `reset()` "zero-fills the whole space" (R51, R58, 70_reset_and_hazards.md R301). -/
def blankByte : Byte := 0x00#8

/-- The number of addresses, 0x0000 to 0xFFFF (R50). -/
def memorySize : Nat := 65536

/-- Memory after `reset()` (R58). -/
def Memory.reset : Memory := []

/-- `mem[a]`. -/
def Memory.byte : Memory → Nat → Byte
  | [], _ => blankByte
  | (k, b) :: m, a => if k = a then b else Memory.byte m a

/-- `mem[a] <- v`, keeping the canonical form: writing the blank byte takes the entry out. -/
def Memory.setByte : Memory → Nat → Byte → Memory
  | [], a, v => if v = blankByte then [] else [(a, v)]
  | (k, b) :: m, a, v =>
    if a < k then (if v = blankByte then (k, b) :: m else (a, v) :: (k, b) :: m)
    else if a = k then (if v = blankByte then m else (k, v) :: m)
    else (k, b) :: Memory.setByte m a v

/-- Every entry lies at `lo` or above and inside the space, addresses rise strictly, no entry is blank. -/
def Memory.wfFrom : Nat → Memory → Bool
  | _, [] => true
  | lo, (k, b) :: m => decide (lo ≤ k) && decide (k < memorySize) && decide (b ≠ blankByte) && Memory.wfFrom (k + 1) m

/-- The canonical form: equal memories are equal lists. -/
def Memory.wf (m : Memory) : Bool := Memory.wfFrom 0 m

/-- The two ways an access fails (R52 to R55), with the address as computed. -/
inductive MemFault where
  | outOfBounds (addr : Int)
  | misaligned (addr : Int)
deriving DecidableEq, Repr, Inhabited

/-- `A + W > 65536`, or `A` below 0, which only `ea_carry_policy = fault` or a host access can compute (R52 to R55, R70). -/
def outside (addr : Int) (width : Int) : Bool := decide (addr < 0) || decide (addr + width > 65536)

/-- An odd address (R54, R55, R62). -/
def isOdd (addr : Int) : Bool := addr % 2 == 1

/-- `load8(A)` (R52). -/
def load8 (m : Memory) (addr : Int) : Except MemFault Byte :=
  if outside addr 1 then .error (.outOfBounds addr)
  else .ok (m.byte addr.toNat)

/-- `store8(A, val)` (R53). -/
def store8 (m : Memory) (addr : Int) (val : Byte) : Except MemFault Memory :=
  if outside addr 1 then .error (.outOfBounds addr)
  else .ok (m.setByte addr.toNat val)

/-- `load16(A)` (R54): alignment first (R57), then bounds; low byte first. -/
def load16 (m : Memory) (addr : Int) : Except MemFault Word :=
  if isOdd addr then .error (.misaligned addr)
  else if outside addr 2 then .error (.outOfBounds addr)
  else .ok (wordOfBytes (m.byte addr.toNat) (m.byte (addr.toNat + 1)))

/-- The two byte writes of a 16-bit store, low byte at the lower address (R55). -/
def Memory.setWord (m : Memory) (a : Nat) (w : Word) : Memory :=
  (m.setByte a (lowByte w)).setByte (a + 1) (highByte w)

/-- `store16(A, val)` (R55): both checks before either byte is written. -/
def store16 (m : Memory) (addr : Int) (val : Word) : Except MemFault Memory :=
  if isOdd addr then .error (.misaligned addr)
  else if outside addr 2 then .error (.outOfBounds addr)
  else .ok (m.setWord addr.toNat val)

end Sys2Proof.Machine
end

