-- ==== Sys2Proof/Machine/Registers.lean ====
section
/-! DEFINITION. The register file of 10_state.md section 1. -/

namespace Sys2Proof.Machine

/-- The eight 16-bit cells (R20). -/
structure Regs where
  x0 : Word
  x1 : Word
  x2 : Word
  x3 : Word
  x4 : Word
  x5 : Word
  x6 : Word
  x7 : Word
deriving DecidableEq, Repr, Inhabited

/-- `x[r]` (00_scope.md R12). x0 reads as any other register (R21). -/
def Regs.get (x : Regs) : Reg → Word
  | .x0 => x.x0
  | .x1 => x.x1
  | .x2 => x.x2
  | .x3 => x.x3
  | .x4 => x.x4
  | .x5 => x.x5
  | .x6 => x.x6
  | .x7 => x.x7

/-- `x[r] <- v` (00_scope.md R12). x0 is written as any other register (R21). -/
def Regs.set (x : Regs) (r : Reg) (v : Word) : Regs :=
  match r with
  | .x0 => { x with x0 := v }
  | .x1 => { x with x1 := v }
  | .x2 => { x with x2 := v }
  | .x3 => { x with x3 := v }
  | .x4 => { x with x4 := v }
  | .x5 => { x with x5 := v }
  | .x6 => { x with x6 := v }
  | .x7 => { x with x7 := v }

/-- The registers after `reset()`: all zero but x2, which is `sp_reset_value` (70_reset_and_hazards.md R300). -/
def Regs.reset (spResetValue : Word) : Regs :=
  ⟨0x0000#16, 0x0000#16, spResetValue, 0x0000#16, 0x0000#16, 0x0000#16, 0x0000#16, 0x0000#16⟩

/-- The register an index names; none outside 0 .. 7 (R20, R23). -/
def regOfIndex (idx : Nat) : Option Reg :=
  match idx with
  | 0 => some .x0
  | 1 => some .x1
  | 2 => some .x2
  | 3 => some .x3
  | 4 => some .x4
  | 5 => some .x5
  | 6 => some .x6
  | 7 => some .x7
  | _ => none

/-- The ECALL argument 1 and return register, a0 (48_sys.md R252, R254). -/
def regA0 : Reg := .x6

/-- The ECALL argument 2 register, a1 (48_sys.md R252). -/
def regA1 : Reg := .x7

end Sys2Proof.Machine
end

