-- ==== Sys2Proof/Machine/State.lean ====
section
/-! DEFINITION. The state of the CORE (10_state.md R36), the reasons a run stops (R32; 60_exceptions.md R271) and the state
after reset (70_reset_and_hazards.md R300). -/

namespace Sys2Proof.Machine

/-- The faults of the spec, each with the information 60_exceptions.md R271 records: the address, index, word or service
number, `pc` (which is `pc_this`) and `word` (`w`; none at a fetch). A core fault is recorded in `stop`; it is no outcome
of the step function (log 10). -/
inductive CoreFault where
  /-- Code 1 (R272): an access outside the 65536 bytes. Raised by loads and stores under `ea_carry_policy = fault`, and by
  service accesses. -/
  | outOfBounds (addr : Int) (pc : Word) (word : Option Word)
  /-- Code 2 (R273): a 16-bit access at an odd address. Raised by LW, SW, the fetch, and service accesses. -/
  | misaligned (addr : Int) (pc : Word) (word : Option Word)
  /-- Code 3 (R274): a register index outside 0 .. 7. Raised by the RegisterFile port only, by no instruction. -/
  | invalidRegister (idx : Nat) (pc : Word)
  /-- Code 4 (R275): the word decodes to UNKNOWN. -/
  | illegalInstruction (word : Word) (pc : Word)
  /-- Code 5 (R276): ECALL with a number that is not in `svc_table`. -/
  | unknownSyscall (svc : BitVec 10) (pc : Word)
  /-- Code 6 (R277): an ECALL reached the execution engine. No run raises it. -/
  | internalContract (word : Word) (pc : Word)
  /-- Code 7 (R278): a service returned the halt flag without success. -/
  | serviceError (svc : BitVec 10) (diag : Option String) (pc : Word)
deriving DecidableEq, Repr, Inhabited

/-- The stop reason (10_state.md R32). -/
inductive Stop where
  | none
  | exit (svc : BitVec 10)
  | endOfProgram (pc : Word)
  | fault (f : CoreFault)
deriving DecidableEq, Repr, Inhabited

/-- The state: the five fields of R36, the parameters (log 1), and the model's own stand-in for the host's session state
(R33; log 5): `replies`, the host's replies to the coming service calls, and `calls`, how many calls were made. -/
structure State where
  x       : Regs
  pc      : Word
  mem     : Memory
  halted  : Bool
  stop    : Stop
  params  : Params
  replies : List ServiceReply
  calls   : Nat
deriving DecidableEq, Repr, Inhabited

/-- The reasons `step` has no next state. The faults of the spec are not among them: they are next states (log 10). -/
inductive Fault where
  /-- Raised by `step` on a halted CORE, which "has no step" (40_cycle.md R121, 60_exceptions.md R283). Safe (log 9). -/
  | halted
  /-- Raised by ECALL when the service never returns: the CORE is stuck in that step (48_sys.md R253). Safe (log 8). -/
  | serviceNeverReturns
deriving DecidableEq, Repr, Inhabited

/-- The reasons the model refuses. -/
inductive Refusal where
  /-- Raised by an arm of `exec` whose instruction has no meaning yet. Safe. No arm does. -/
  | notModelled (mnemonic : String)
  /-- Raised by the image loader on more than 32768 words (70_reset_and_hazards.md R304), never by `step`. Safe (log 20). -/
  | imageTooLong (words : Nat)
deriving DecidableEq, Repr, Inhabited

/-- The state after reset under given parameters (70_reset_and_hazards.md R300), before the image is loaded. -/
def State.resetWith (p : Params) : State :=
  { x := Regs.reset p.spResetValue
    pc := 0x0000#16
    mem := Memory.reset
    halted := false
    stop := .none
    params := p
    replies := []
    calls := 0 }

/-- The state after reset, every parameter at its default (00_scope.md R8; log 2), no image loaded. -/
def State.reset : State := State.resetWith defaultParams

end Sys2Proof.Machine
end

