-- ==== Sys2Proof/Machine/Operands.lean ====
section
/-! DEFINITION. The operand forms: sign and zero extension, the immediate of each format, the register shift amount, the
effective address, and the RegisterFile port. -/

namespace Sys2Proof.Machine

/-- `sext_N` (00_scope.md R10), one function for every width: the all-ones above the field are or-ed in when its high
bit is set. -/
def sext {n : Nat} (v : BitVec n) : Word :=
  if v.msb then v.setWidth 16 ||| (0xFFFF#16 <<< n) else v.setWidth 16

/-- `zext_N` (R10): zeros above the field. -/
def zext {n : Nat} (v : BitVec n) : Word := v.setWidth 16

/-- I-format immediate, non-shift (30_encoding.md R91). -/
def immI (imm : BitVec 7) : Word := sext imm

/-- I-format shift amount (R92). -/
def immShamt (shamt : BitVec 4) : Word := zext shamt

/-- B-format offset, `sext_5(w[15:12] ++ 0b0)` (R93). -/
def immB (imm : BitVec 4) : Word := sext (imm ++ 0b0#1)

/-- S- and L-format offset, a byte offset (R94). -/
def immSL (imm : BitVec 4) : Word := sext imm

/-- J-format offset, `sext_10(w[14:9] ++ w[5:3] ++ 0b0)` (R95). -/
def immJ (imm : BitVec 9) : Word := sext (imm ++ 0b0#1)

/-- U-format immediate, `(w[14:9] ++ w[5:3]) << 7` (R96). -/
def immU (imm : BitVec 9) : Word := zext imm <<< 7

/-- The register shift amount `x[rs2][3:0]` (41_r_type.md R141). -/
def shiftAmount (v : Word) : Word := zext (v.extractLsb' 0 4)

/-- The effective address of a load or store (20_memory.md R66, R70): modulo 2^16 under `wrap`, the integer
`base + imm` under `fault`. -/
def effectiveAddress (policy : EaCarryPolicy) (base : Word) (imm : BitVec 4) : Int :=
  match policy with
  | .wrap => ((base + immSL imm).toNat : Int)
  | .fault => (base.toNat : Int) + (immSL imm).toInt

/-- The effective address an S or L instruction computes in a state. -/
def State.ea (s : State) (base : Reg) (imm : BitVec 4) : Int :=
  effectiveAddress s.params.eaCarryPolicy (s.x.get base) imm

/-- `get(idx)` of the RegisterFile port (10_state.md R23). -/
def regGet (s : State) (idx : Nat) : Except CoreFault Word :=
  match regOfIndex idx with
  | some r => .ok (s.x.get r)
  | none => .error (.invalidRegister idx s.pc)

/-- `set(idx, val)` of the RegisterFile port (R23). -/
def regSet (s : State) (idx : Nat) (v : Word) : Except CoreFault State :=
  match regOfIndex idx with
  | some r => .ok { s with x := s.x.set r v }
  | none => .error (.invalidRegister idx s.pc)

/-- `getPC()` (R25). -/
def getPC (s : State) : Word := s.pc

/-- `setPC(val)` (R25): any value, odd ones too (R28). -/
def setPC (s : State) (v : Word) : State := { s with pc := v }

end Sys2Proof.Machine
end

