-- ==== Sys2Proof/Machine/Flags.lean ====
section
/-! DEFINITION. The CORE has no flags (10_state.md R29): comparisons give a register value or a branch condition. This file
holds the comparisons of 00_scope.md R11 and the branch resolver of 43_b_type.md R191. -/

namespace Sys2Proof.Machine

/-- `bool(c)` (R11). -/
def boolWord (c : Bool) : Word := if c then 0x0001#16 else 0x0000#16

/-- The signed view `s16(v)` (R11). -/
def s16 (v : Word) : Int := if v.msb then (v.toNat : Int) - 65536 else (v.toNat : Int)

/-- `a <s b` (R11). -/
def ltS (a b : Word) : Bool := decide (s16 a < s16 b)

/-- `a >=s b` (R11). -/
def geS (a b : Word) : Bool := decide (s16 a ≥ s16 b)

/-- `a <u b` (R11). -/
def ltU (a b : Word) : Bool := decide (a.toNat < b.toNat)

/-- `a >=u b` (R11). -/
def geU (a b : Word) : Bool := decide (a.toNat ≥ b.toNat)

/-- The operations of the branch resolver. -/
inductive BranchOp where
  | eq | ne | z | nz | lt | ge | ltu | geu
deriving DecidableEq, Repr, Inhabited

/-- `Cond(op, a, b)` (43_b_type.md R191); BZ and BNZ do not read `b`. -/
def branchCond (op : BranchOp) (a b : Word) : Bool :=
  match op with
  | .eq => a == b
  | .ne => a != b
  | .z => a == 0x0000#16
  | .nz => a != 0x0000#16
  | .lt => ltS a b
  | .ge => geS a b
  | .ltu => ltU a b
  | .geu => geU a b

end Sys2Proof.Machine
end

