-- ==== Sys2Proof/Machine/Alu.lean ====
section
/-! DEFINITION. The ALU of the R and I formats: 16-bit results that wrap modulo 2^16 (00_scope.md R11). -/

namespace Sys2Proof.Machine

/-- The operations the R and I formats share (41_r_type.md R142 to R151, 42_i_type.md R171 to R179). -/
inductive AluOp where
  | add | sub | slt | sltu | sll | srl | sra | or | and | xor
deriving DecidableEq, Repr, Inhabited

/-- `a << n`, keeping bits 15:0 (R11). -/
def shiftLeft (a n : Word) : Word := a <<< n.toNat

/-- `a >>u n`, zeros in (R11). -/
def shiftRightU (a n : Word) : Word := a >>> n.toNat

/-- `a >>s n`, copies of bit 15 in (R11). -/
def shiftRightS (a n : Word) : Word := a.sshiftRight n.toNat

/-- `a OP b`. For a shift `b` is the amount, which the operand forms bound by 15 (R141, 30_encoding.md R92). -/
def alu (op : AluOp) (a b : Word) : Word :=
  match op with
  | .add => a + b
  | .sub => a - b
  | .slt => boolWord (ltS a b)
  | .sltu => boolWord (ltU a b)
  | .sll => shiftLeft a b
  | .srl => shiftRightU a b
  | .sra => shiftRightS a b
  | .or => a ||| b
  | .and => a &&& b
  | .xor => a ^^^ b

end Sys2Proof.Machine
end

