-- ==== Sys2Proof/Machine/Ops.lean ====
section
/-! DEFINITION. The shared operations of a step: the engine's Outcome and the PC sequencer (40_cycle.md R125, R126), fault
entry (60_exceptions.md R279), the fetch (R122) and the end-of-image check (R121). -/

namespace Sys2Proof.Machine

/-- The outcome of a meaning and of a step. -/
abbrev Result := Host.Outcome State Fault Refusal

/-- `pc_next = pc_this + 2`, modulo 2^16 (10_state.md R26, R27). -/
def State.pcNext (s : State) : Word := s.pc + 2#16

/-- The writes of one instruction: at most one general register and at most one memory access (40_cycle.md R127). `mem` is
the memory after the access. -/
structure Writes where
  reg : Option (Reg × Word) := none
  mem : Option Memory := none
deriving DecidableEq, Repr, Inhabited

/-- The engine's Outcome (R125). -/
inductive EngineOutcome where
  | next (w : Writes)
  | jump (w : Writes) (target : Word)
  | fault (f : CoreFault)
deriving DecidableEq, Repr, Inhabited

/-- Apply the writes. -/
def applyWrites (w : Writes) (s : State) : State :=
  { s with
    x := match w.reg with
      | some (r, v) => s.x.set r v
      | none => s.x
    mem := w.mem.getD s.mem }

/-- FAULT ENTRY (60_exceptions.md R279), the one way a fault is taken: `halted` and `stop` are written, nothing else. There
is no return from it (R283). -/
def takeFault (f : CoreFault) (s : State) : State := { s with halted := true, stop := .fault f }

/-- The PC sequencer (R126). -/
def pcSequencer (o : EngineOutcome) (s : State) : State :=
  match o with
  | .next w => setPC (applyWrites w s) s.pcNext
  | .jump w target => setPC (applyWrites w s) target
  | .fault f => takeFault f s

/-- End a step with the engine's Outcome. -/
def retire (o : EngineOutcome) (s : State) : Result := .next (pcSequencer o s)

/-- A failed access as the fault the step raises, with `pc_this` and the word (20_memory.md R56, 60_exceptions.md R271). -/
def MemFault.raised (pc : Word) (word : Option Word) : MemFault → CoreFault
  | .outOfBounds addr => .outOfBounds addr pc word
  | .misaligned addr => .misaligned addr pc word

/-- The fetch, `MemRead(pc_this, 2)` (R122): an odd PC raises Misaligned, with no word recorded. -/
def fetch (s : State) : Except CoreFault Word :=
  match load16 s.mem (s.pc.toNat : Int) with
  | .ok w => .ok w
  | .error e => .error (e.raised s.pc none)

/-- The end-of-image check (R121): `end_of_image_stop` and `pc ≥ image_len`. -/
def atImageEnd (s : State) : Bool := s.params.endOfImageStop && decide (s.params.imageLen ≤ s.pc.toNat)

/-- The step that ends a run at the end of the image changes `halted` and `stop` only (R121). -/
def stopAtImageEnd (s : State) : State := { s with halted := true, stop := .endOfProgram s.pc }

/-- Put a word where the next fetch reads and let the image reach past it (log 11). At an odd PC no fetch reads a word, and
nothing is placed. -/
def placeWord (s : State) (w : Word) : State :=
  match store16 s.mem (s.pc.toNat : Int) w with
  | .ok m => { s with mem := m, params := { s.params with imageLen := max s.params.imageLen (s.pc.toNat + 2) } }
  | .error _ => s

/-- `x[rd] <- x[rd] OP v`, Outcome Next (41_r_type.md R140, 42_i_type.md R170). -/
def aluInto (op : AluOp) (rd : Reg) (v : Word) (s : State) : EngineOutcome :=
  .next { reg := some (rd, alu op (s.x.get rd) v) }

/-- `x[rd] <- v`, Outcome Next. -/
def writeReg (rd : Reg) (v : Word) : EngineOutcome := .next { reg := some (rd, v) }

/-- Every branch (43_b_type.md R190): a Jump to `pc_next + imm` when the condition holds, else Next. -/
def branch (op : BranchOp) (a b : Word) (imm : BitVec 4) (s : State) : EngineOutcome :=
  if branchCond op a b then .jump {} (s.pcNext + immB imm) else .next {}

/-- A byte load (45_l_type.md R221, R223): `extend` is `sext_8` or `zext_8`; `word` is recorded by a fault. -/
def loadByte (extend : Byte → Word) (word : Word) (rd base : Reg) (imm : BitVec 4) (s : State) : EngineOutcome :=
  match load8 s.mem (s.ea base imm) with
  | .ok b => .next { reg := some (rd, extend b) }
  | .error e => .fault (e.raised s.pc (some word))

/-- A halfword load (R222). -/
def loadWord (word : Word) (rd base : Reg) (imm : BitVec 4) (s : State) : EngineOutcome :=
  match load16 s.mem (s.ea base imm) with
  | .ok v => .next { reg := some (rd, v) }
  | .error e => .fault (e.raised s.pc (some word))

/-- A byte store (44_s_type.md R211): the low byte of the data register. -/
def storeByte (word : Word) (base data : Reg) (imm : BitVec 4) (s : State) : EngineOutcome :=
  match store8 s.mem (s.ea base imm) (lowByte (s.x.get data)) with
  | .ok m => .next { mem := some m }
  | .error e => .fault (e.raised s.pc (some word))

/-- A halfword store (R212). -/
def storeWord (word : Word) (base data : Reg) (imm : BitVec 4) (s : State) : EngineOutcome :=
  match store16 s.mem (s.ea base imm) (s.x.get data) with
  | .ok m => .next { mem := some m }
  | .error e => .fault (e.raised s.pc (some word))

end Sys2Proof.Machine
end

