-- ==== Sys2Proof/Machine/BType.lean ====
section
/-! DEFINITION. The B-format instructions (43_b_type.md). -/

namespace Sys2Proof.Machine

/-- BEQ (R192). -/
def execBeq (rs1 rs2 : Reg) (imm : BitVec 4) (s : State) : Result :=
  retire (branch .eq (s.x.get rs1) (s.x.get rs2) imm s) s

/-- BNE (R193). -/
def execBne (rs1 rs2 : Reg) (imm : BitVec 4) (s : State) : Result :=
  retire (branch .ne (s.x.get rs1) (s.x.get rs2) imm s) s

/-- BZ (R194): tests rs1 only; bits 11:9 are ignored. -/
def execBz (rs1 : Reg) (_ignored : BitVec 3) (imm : BitVec 4) (s : State) : Result :=
  retire (branch .z (s.x.get rs1) 0x0000#16 imm s) s

/-- BNZ (R195): tests rs1 only; bits 11:9 are ignored. -/
def execBnz (rs1 : Reg) (_ignored : BitVec 3) (imm : BitVec 4) (s : State) : Result :=
  retire (branch .nz (s.x.get rs1) 0x0000#16 imm s) s

/-- BLT (R196). -/
def execBlt (rs1 rs2 : Reg) (imm : BitVec 4) (s : State) : Result :=
  retire (branch .lt (s.x.get rs1) (s.x.get rs2) imm s) s

/-- BGE (R197). -/
def execBge (rs1 rs2 : Reg) (imm : BitVec 4) (s : State) : Result :=
  retire (branch .ge (s.x.get rs1) (s.x.get rs2) imm s) s

/-- BLTU (R198). -/
def execBltu (rs1 rs2 : Reg) (imm : BitVec 4) (s : State) : Result :=
  retire (branch .ltu (s.x.get rs1) (s.x.get rs2) imm s) s

/-- BGEU (R199). -/
def execBgeu (rs1 rs2 : Reg) (imm : BitVec 4) (s : State) : Result :=
  retire (branch .geu (s.x.get rs1) (s.x.get rs2) imm s) s

end Sys2Proof.Machine
end

