-- ==== Sys2Proof/Machine/IType.lean ====
section
/-! DEFINITION. The I-format instructions (42_i_type.md). -/

namespace Sys2Proof.Machine

/-- ADDI (R171): `x[rd] <- x[rd] + sext_7(imm)`. -/
def execAddi (rd : Reg) (imm : BitVec 7) (s : State) : Result := retire (aluInto .add rd (immI imm) s) s

/-- SLTI (R172): `x[rd] <- x[rd] <s sext_7(imm)` as 0 or 1. -/
def execSlti (rd : Reg) (imm : BitVec 7) (s : State) : Result := retire (aluInto .slt rd (immI imm) s) s

/-- SLTUI (R173): `x[rd] <- x[rd] <u sext_7(imm)` as 0 or 1. -/
def execSltui (rd : Reg) (imm : BitVec 7) (s : State) : Result := retire (aluInto .sltu rd (immI imm) s) s

/-- SLLI (R174): shift by `zext_4(shamt)`. -/
def execSlli (rd : Reg) (shamt : BitVec 4) (s : State) : Result := retire (aluInto .sll rd (immShamt shamt) s) s

/-- SRLI (R175): shift by `zext_4(shamt)`. -/
def execSrli (rd : Reg) (shamt : BitVec 4) (s : State) : Result := retire (aluInto .srl rd (immShamt shamt) s) s

/-- SRAI (R176): shift by `zext_4(shamt)`. -/
def execSrai (rd : Reg) (shamt : BitVec 4) (s : State) : Result := retire (aluInto .sra rd (immShamt shamt) s) s

/-- ORI (R177): `x[rd] | sext_7(imm)`. -/
def execOri (rd : Reg) (imm : BitVec 7) (s : State) : Result := retire (aluInto .or rd (immI imm) s) s

/-- ANDI (R178): `x[rd] & sext_7(imm)`. -/
def execAndi (rd : Reg) (imm : BitVec 7) (s : State) : Result := retire (aluInto .and rd (immI imm) s) s

/-- XORI (R179): `x[rd] ^ sext_7(imm)`. -/
def execXori (rd : Reg) (imm : BitVec 7) (s : State) : Result := retire (aluInto .xor rd (immI imm) s) s

/-- LI (R180): `x[rd] <- sext_7(imm)`; the old value is not read. -/
def execLi (rd : Reg) (imm : BitVec 7) (s : State) : Result := retire (writeReg rd (immI imm)) s

end Sys2Proof.Machine
end

