-- ==== Sys2Proof/Machine/JumpUpper.lean ====
section
/-! DEFINITION. The J- and U-format instructions (46_j_type.md, 47_u_type.md). -/

namespace Sys2Proof.Machine

/-- J (R231): `pc <- pc_next + imm`; no link, whatever bits 8:6 hold. -/
def execJ (_ignored : BitVec 3) (imm : BitVec 9) (s : State) : Result :=
  retire (.jump {} (s.pcNext + immJ imm)) s

/-- JAL (R232): links `pc_next` into rd unless rd is x0, then `pc <- pc_next + imm`. -/
def execJal (rd : Reg) (imm : BitVec 9) (s : State) : Result :=
  retire (.jump { reg := if rd = .x0 then none else some (rd, s.pcNext) } (s.pcNext + immJ imm)) s

/-- LUI (R241): `x[rd] <- imm_shifted`. -/
def execLui (rd : Reg) (imm : BitVec 9) (s : State) : Result := retire (writeReg rd (immU imm)) s

/-- AUIPC (R242): `x[rd] <- pc_this + imm_shifted`, the instruction's own address. -/
def execAuipc (rd : Reg) (imm : BitVec 9) (s : State) : Result := retire (writeReg rd (s.pc + immU imm)) s

end Sys2Proof.Machine
end

