-- ==== Sys2Proof/Machine/LoadStore.lean ====
section
/-! DEFINITION. The S- and L-format instructions (44_s_type.md, 45_l_type.md). -/

namespace Sys2Proof.Machine

/-- SB (R211): `mem[EA] <- x[rs2][7:0]`, any address. -/
def execSb (rs1 rs2 : Reg) (imm : BitVec 4) (s : State) : Result :=
  retire (storeByte (encode (.sb rs1 rs2 imm)) rs1 rs2 imm s) s

/-- SW (R212): the halfword at an even EA; Misaligned at an odd one. -/
def execSw (rs1 rs2 : Reg) (imm : BitVec 4) (s : State) : Result :=
  retire (storeWord (encode (.sw rs1 rs2 imm)) rs1 rs2 imm s) s

/-- LB (R221): `x[rd] <- sext_8(mem[EA])`. -/
def execLb (rd rs2 : Reg) (imm : BitVec 4) (s : State) : Result :=
  retire (loadByte sext (encode (.lb rd rs2 imm)) rd rs2 imm s) s

/-- LW (R222): the halfword at an even EA; Misaligned at an odd one. -/
def execLw (rd rs2 : Reg) (imm : BitVec 4) (s : State) : Result :=
  retire (loadWord (encode (.lw rd rs2 imm)) rd rs2 imm s) s

/-- LBU (R223): `x[rd] <- zext_8(mem[EA])`. -/
def execLbu (rd rs2 : Reg) (imm : BitVec 4) (s : State) : Result :=
  retire (loadByte zext (encode (.lbu rd rs2 imm)) rd rs2 imm s) s

end Sys2Proof.Machine
end

