-- ==== Sys2Proof/Machine/RType.lean ====
section
/-! DEFINITION. The R-format instructions (41_r_type.md). -/

namespace Sys2Proof.Machine

/-- NOP (R155): nothing but `pc <- pc_next`, whatever x0 holds. -/
def execNop (s : State) : Result := retire (.next {}) s

/-- ADD (R142): `x[rd] <-` `x[rd] + x[rs2]`. -/
def execAdd (rd rs2 : Reg) (s : State) : Result := retire (aluInto .add rd (s.x.get rs2) s) s

/-- SUB (R143): `x[rd] <-` `x[rd] - x[rs2]`. -/
def execSub (rd rs2 : Reg) (s : State) : Result := retire (aluInto .sub rd (s.x.get rs2) s) s

/-- SLT (R144): `x[rd] <-` `bool(x[rd] <s x[rs2])`. -/
def execSlt (rd rs2 : Reg) (s : State) : Result := retire (aluInto .slt rd (s.x.get rs2) s) s

/-- SLTU (R145): `x[rd] <-` `bool(x[rd] <u x[rs2])`. -/
def execSltu (rd rs2 : Reg) (s : State) : Result := retire (aluInto .sltu rd (s.x.get rs2) s) s

/-- SLL (R146): `x[rd] <-` `x[rd] << x[rs2][3:0]`. -/
def execSll (rd rs2 : Reg) (s : State) : Result := retire (aluInto .sll rd (shiftAmount (s.x.get rs2)) s) s

/-- SRL (R147): `x[rd] <-` `x[rd] >>u x[rs2][3:0]`. -/
def execSrl (rd rs2 : Reg) (s : State) : Result := retire (aluInto .srl rd (shiftAmount (s.x.get rs2)) s) s

/-- SRA (R148): `x[rd] <-` `x[rd] >>s x[rs2][3:0]`. -/
def execSra (rd rs2 : Reg) (s : State) : Result := retire (aluInto .sra rd (shiftAmount (s.x.get rs2)) s) s

/-- OR (R149): `x[rd] <-` `x[rd] | x[rs2]`. -/
def execOr (rd rs2 : Reg) (s : State) : Result := retire (aluInto .or rd (s.x.get rs2) s) s

/-- AND (R150): `x[rd] <-` `x[rd] & x[rs2]`. -/
def execAnd (rd rs2 : Reg) (s : State) : Result := retire (aluInto .and rd (s.x.get rs2) s) s

/-- XOR (R151): `x[rd] <-` `x[rd] ^ x[rs2]`. -/
def execXor (rd rs2 : Reg) (s : State) : Result := retire (aluInto .xor rd (s.x.get rs2) s) s

/-- MV (R152): `x[rd] <- x[rs2]`. -/
def execMv (rd rs2 : Reg) (s : State) : Result := retire (writeReg rd (s.x.get rs2)) s

/-- JR (R153): `pc <- x[rd]`, odd values too; bits 11:9 are ignored (30_encoding.md R107). -/
def execJr (rd : Reg) (_ignored : BitVec 3) (s : State) : Result := retire (.jump {} (s.x.get rd)) s

/-- JALR (R154): the target is read before the link is written. -/
def execJalr (rd rs2 : Reg) (s : State) : Result := retire (.jump { reg := some (rd, s.pcNext) } (s.x.get rs2)) s

end Sys2Proof.Machine
end

