-- ==== Sys2Proof/Machine/Sys.lean ====
section
/-! DEFINITION. ECALL and the dispatch contract (48_sys.md). -/

namespace Sys2Proof.Machine

/-- The result of the program-exit service: "success with the halt flag set and no return value" (R260). -/
def exitResult : ServiceResult := { success := true, ret := none, halt := true, diag := none, accesses := [] }

/-- `Service(svc, x[6], x[7], mem, host)` (R251, R253). Program exit, the service at `svc_exit`, has its fixed result; every
other service is the oracle's (R259): the next reply in `replies`, or, when none is given, the free reply of this call
(log 5). -/
def serviceReply (service : Service) (svc : BitVec 10) (s : State) : ServiceReply :=
  if svc = s.params.svcExit then .returns exitResult
  else
    match s.replies with
    | r :: _ => r
    | [] => Config.freeReply s.calls service svc (s.x.get regA0) (s.x.get regA1) s.mem

/-- The host's session state after a service call (10_state.md R33; log 5); program exit does not touch it. -/
def afterCall (svc : BitVec 10) (s : State) : State :=
  if svc = s.params.svcExit then s else { s with replies := s.replies.tail, calls := s.calls + 1 }

/-- One access of a service, through the memory contract (R258). -/
def runAccess (m : Memory) : ServiceAccess → Except MemFault Memory
  | .load8 addr =>
    match load8 m addr with
    | .ok _ => .ok m
    | .error e => .error e
  | .load16 addr =>
    match load16 m addr with
    | .ok _ => .ok m
    | .error e => .error e
  | .store8 addr val => store8 m addr val
  | .store16 addr val => store16 m addr val

/-- A service's accesses in order, up to the first that fails; the writes before it stay (R258). -/
def runAccesses (m : Memory) : List ServiceAccess → Memory × Option MemFault
  | [] => (m, none)
  | a :: rest =>
    match runAccess m a with
    | .ok m' => runAccesses m' rest
    | .error e => (m, some e)

/-- The return value goes to a0 iff the result has success and a value (R254). -/
def applyReturn (r : ServiceResult) (s : State) : State :=
  match r.success, r.ret with
  | true, some v => { s with x := s.x.set regA0 v }
  | _, _ => s

/-- Apply a result. First the accesses and their fault, which keeps the writes made before it (R258); then, with the halt
flag, the exit, or ServiceError, a fault that leaves memory as the step found it (R255; 60_exceptions.md R279); without it,
the advance (R256). The return value is written before the halt or the advance (R254). -/
def applyResult (svc : BitVec 10) (word : Word) (r : ServiceResult) (s : State) : State :=
  match runAccesses s.mem r.accesses with
  | (m, some e) => takeFault (e.raised s.pc (some word)) { s with mem := m }
  | (m, none) =>
    if r.halt then
      if r.success then { applyReturn r { s with mem := m } with halted := true, stop := .exit svc }
      else takeFault (.serviceError svc r.diag s.pc) s
    else setPC (applyReturn r { s with mem := m }) s.pcNext

/-- ECALL (R250, R251), the path of the dispatch port, not of the execution engine (40_cycle.md R124). -/
def execEcall (svc : BitVec 10) (s : State) : Result :=
  match serviceAt s.params svc with
  | none => retire (.fault (.unknownSyscall svc s.pc)) s
  | some service =>
    match serviceReply service svc s with
    | .neverReturns => .fault .serviceNeverReturns
    | .returns r => .next (applyResult svc (encode (.ecall svc)) r (afterCall svc s))

end Sys2Proof.Machine
end

