-- ==== Sys2Proof/Machine/Engine.lean ====
section
/-! DEFINITION. The execution engine's `Execute` (40_cycle.md R130) and the dispatch of a decoded word (R124). -/

namespace Sys2Proof.Machine

/-- `Execute(d)` of the engine for an instruction (R130): the meaning of every instruction but ECALL, which the engine
"does **not** handle": an ECALL that reaches it is InternalContract (R133). -/
def engineExecute (i : Instr) (s : State) : Result :=
  match i with
  | .ecall svc => retire (.fault (.internalContract (encode (.ecall svc)) s.pc)) s
  | other => exec other s

/-- `Execute(UNKNOWN)` raises IllegalInstruction (R132). -/
def engineUnknown (w : Word) (s : State) : Result := retire (.fault (.illegalInstruction w s.pc)) s

/-- Dispatch (R124): ECALL goes to the dispatch port, every other instruction to the engine. -/
def dispatch (i : Instr) (s : State) : Result :=
  match i with
  | .ecall svc => exec (.ecall svc) s
  | other => engineExecute other s

/-- Decode (R123) and dispatch (R124) a fetched word. -/
def executeWord (w : Word) (s : State) : Result :=
  match decode w with
  | .instr i => dispatch i s
  | .unknown _ => engineUnknown w s

end Sys2Proof.Machine
end

