-- ==== Sys2Proof/Machine/Step.lean ====
section
/-! DEFINITION. One step (40_cycle.md R120 to R124), in the priority order of 60_exceptions.md R281. -/

namespace Sys2Proof.Machine

/-- One step: a halted CORE has none (R121, R283); then the end-of-image check (R121), the fetch (R122), decode and dispatch
(R123, R124). -/
def step (s : State) : Host.Outcome State Fault Refusal :=
  if s.halted then .fault .halted
  else if atImageEnd s then .next (stopAtImageEnd s)
  else
    match fetch s with
    | .error f => retire (.fault f) s
    | .ok w => executeWord w s

/-- The state with an instruction placed where `step` fetches, inside the image (log 11). It stands for the image load
(70_reset_and_hazards.md R304) of that one word. -/
def State.withFetchWord (s : State) (nbits w : Nat) : State := placeWord s (tableWord nbits w)

end Sys2Proof.Machine
end

