-- ==== Sys2Proof/Machine/Boot.lean ====
section
/-! DEFINITION. Reset and the image load (70_reset_and_hazards.md R300 to R305). -/

namespace Sys2Proof.Machine

/-- The words of an image as the loader writes them from address `a` on: `mem[2i] <- w_i[7:0]`, `mem[2i+1] <- w_i[15:8]`
(R304). -/
def loadWords (m : Memory) (a : Nat) : List Word → Memory
  | [] => m
  | w :: ws => loadWords (m.setWord a w) (a + 2) ws

/-- The most words an image may have (R304). -/
def maxImageWords : Nat := 32768

/-- Boot (R305): `reset()`, then the image load, which sets `image_len`; the first step is next. `host` is the host's
session, which the spec leaves to the host (R300; log 6). A longer image is refused and the CORE never starts (R304). -/
def boot (p : Params) (host : List ServiceReply) (image : List Word) : Result :=
  if image.length > maxImageWords then .refused (.imageTooLong image.length)
  else
    .next { State.resetWith { p with imageLen := 2 * image.length } with
      mem := loadWords Memory.reset 0 image
      replies := host }

end Sys2Proof.Machine
end

