-- ==== Sys2Proof/Machine/Driver.lean ====
section
/-! DEFINITION. The driver loop around the CORE (40_cycle.md R129, R131): it steps until the halt flag is set, or, where the
host sets a cap `fuel`, until that is used up. -/

namespace Sys2Proof.Machine

/-- How the loop stops. -/
inductive DriveResult where
  /-- The run ended: `halted` is true, and `stop` says why (R129). -/
  | ended (s : State)
  /-- The cap stopped the loop; the run has not ended (R131). -/
  | capReached (s : State)
  /-- A step had no next state: a service never returned (48_sys.md R253). -/
  | stuck (why : Fault) (s : State)
  /-- A step was refused; no instruction of this model is. -/
  | refused (why : Refusal) (s : State)
deriving DecidableEq, Repr, Inhabited

/-- The loop with a cap of `fuel` steps (log 18). -/
def drive : Nat → State → DriveResult
  | 0, s => if s.halted then .ended s else .capReached s
  | fuel + 1, s =>
    if s.halted then .ended s
    else
      match step s with
      | .next t => drive fuel t
      | .fault why => .stuck why s
      | .refused why => .refused why s

/-- The loop with the optional cap of 00_scope.md R8, none by default. With a cap it stops as `drive` does. With none it
stops as it does with some number of steps that does not cut it short; a runaway program's loop stops nowhere (R131). -/
def StopsAt (s : State) (r : DriveResult) (fuel : Option Nat := none) : Prop :=
  match fuel with
  | some n => drive n s = r
  | none => (∃ n : Nat, drive n s = r) ∧ ∀ t : State, r ≠ .capReached t

end Sys2Proof.Machine
end

