-- ==== Sys2Proof/Machine/Record.lean ====
section
/-! DEFINITION. The decoder's output record (30_encoding.md R108) and the assembler text of an instruction (R109). Nothing
of the machine reads them: they show the fields of every format and the names a reader uses. -/

namespace Sys2Proof.Machine

/-- DecodedInstruction (R108): the raw word, the format (none for UNKNOWN), the register fields, the immediate as the
machine uses it, the 10-bit syscall number, the operation tag and the mnemonic. -/
structure DecodedInstruction where
  word     : Word
  format   : Option Format
  rd       : Option Reg
  rs1      : Option Reg
  rs2      : Option Reg
  imm      : Option Word
  svc      : Option (BitVec 10)
  op       : Option Instr
  mnemonic : String
deriving DecidableEq, Repr, Inhabited

/-- The mnemonic, for display only (R108). -/
def mnemonic : Instr → String
  | .nop => "NOP"
  | .add _ _ => "ADD"
  | .sub _ _ => "SUB"
  | .slt _ _ => "SLT"
  | .sltu _ _ => "SLTU"
  | .sll _ _ => "SLL"
  | .srl _ _ => "SRL"
  | .sra _ _ => "SRA"
  | .or _ _ => "OR"
  | .and _ _ => "AND"
  | .xor _ _ => "XOR"
  | .mv _ _ => "MV"
  | .jr _ _ => "JR"
  | .jalr _ _ => "JALR"
  | .addi _ _ => "ADDI"
  | .slti _ _ => "SLTI"
  | .sltui _ _ => "SLTUI"
  | .slli _ _ => "SLLI"
  | .srli _ _ => "SRLI"
  | .srai _ _ => "SRAI"
  | .ori _ _ => "ORI"
  | .andi _ _ => "ANDI"
  | .xori _ _ => "XORI"
  | .li _ _ => "LI"
  | .beq _ _ _ => "BEQ"
  | .bne _ _ _ => "BNE"
  | .bz _ _ _ => "BZ"
  | .bnz _ _ _ => "BNZ"
  | .blt _ _ _ => "BLT"
  | .bge _ _ _ => "BGE"
  | .bltu _ _ _ => "BLTU"
  | .bgeu _ _ _ => "BGEU"
  | .sb _ _ _ => "SB"
  | .sw _ _ _ => "SW"
  | .lb _ _ _ => "LB"
  | .lw _ _ _ => "LW"
  | .lbu _ _ _ => "LBU"
  | .j _ _ => "J"
  | .jal _ _ => "JAL"
  | .lui _ _ => "LUI"
  | .auipc _ _ => "AUIPC"
  | .ecall _ => "ECALL"

/-- The record of an UNKNOWN word: `format = UNKNOWN`, `mnemonic = "UNKNOWN"` (R105). -/
def unknownRecord (w : Word) : DecodedInstruction :=
  { word := w, format := none, rd := none, rs1 := none, rs2 := none, imm := none, svc := none, op := none
    mnemonic := "UNKNOWN" }

/-- The fields of a word by its format (R82 to R89, R91 to R96), as the decoder's algorithm takes them (R105). -/
def recordOf (w : Word) (i : Instr) : DecodedInstruction :=
  let a : Reg := .ofBits (field w 6 3)
  let b : Reg := .ofBits (field w 9 3)
  let base : DecodedInstruction :=
    { unknownRecord w with format := some (i.format), op := some i, mnemonic := mnemonic i }
  match i.format with
  | .r => { base with rd := some a, rs1 := some a, rs2 := some b }
  | .i =>
    { base with
      rd := some a
      rs1 := some a
      imm := some (if field w 3 3 = 0b011#3 then immShamt (field w 9 4) else immI (field w 9 7)) }
  | .b => { base with rs1 := some a, rs2 := some b, imm := some (immB (field w 12 4)) }
  | .s => { base with rs1 := some a, rs2 := some b, imm := some (immSL (field w 12 4)) }
  | .l => { base with rd := some a, rs2 := some b, imm := some (immSL (field w 12 4)) }
  | .j => { base with rd := some a, imm := some (immJ (field w 9 6 ++ field w 3 3)) }
  | .u => { base with rd := some a, imm := some (immU (field w 9 6 ++ field w 3 3)) }
  | .sys => { base with svc := some (field w 6 10) }

/-- `decode(word) -> DecodedInstruction` (R105, R108). -/
def decodeRecord (w : Word) : DecodedInstruction :=
  match decode w with
  | .instr i => recordOf w i
  | .unknown _ => unknownRecord w

/-- The ABI name of a register (10_state.md R22). -/
def abiName : Reg → String
  | .x0 => "t0"
  | .x1 => "ra"
  | .x2 => "sp"
  | .x3 => "s0"
  | .x4 => "s1"
  | .x5 => "t1"
  | .x6 => "a0"
  | .x7 => "a1"

/-- A signed operand in decimal. -/
def signedText (v : Word) : String := toString v.toInt

/-- `OP rd, rs2` (R109). -/
def text2 (i : Instr) (a b : Reg) : String := mnemonic i ++ " " ++ abiName a ++ ", " ++ abiName b

/-- `OP rd, imm` (R109). -/
def textImm (i : Instr) (a : Reg) (imm : String) : String := mnemonic i ++ " " ++ abiName a ++ ", " ++ imm

/-- `OP data, offset(base)` (R109). -/
def textMem (i : Instr) (data base : Reg) (imm : BitVec 4) : String :=
  mnemonic i ++ " " ++ abiName data ++ ", " ++ signedText (immSL imm) ++ "(" ++ abiName base ++ ")"

/-- The assembler text of an instruction, registers by ABI name (R109; log 21). -/
def instrText (i : Instr) : String :=
  match i with
  | .nop => "NOP"
  | .add a b => text2 i a b
  | .sub a b => text2 i a b
  | .slt a b => text2 i a b
  | .sltu a b => text2 i a b
  | .sll a b => text2 i a b
  | .srl a b => text2 i a b
  | .sra a b => text2 i a b
  | .or a b => text2 i a b
  | .and a b => text2 i a b
  | .xor a b => text2 i a b
  | .mv a b => text2 i a b
  | .jr a _ => "JR " ++ abiName a
  | .jalr a b => text2 i a b
  | .addi a k => textImm i a (signedText (immI k))
  | .slti a k => textImm i a (signedText (immI k))
  | .sltui a k => textImm i a (signedText (immI k))
  | .slli a k => textImm i a (toString k.toNat)
  | .srli a k => textImm i a (toString k.toNat)
  | .srai a k => textImm i a (toString k.toNat)
  | .ori a k => textImm i a (signedText (immI k))
  | .andi a k => textImm i a (signedText (immI k))
  | .xori a k => textImm i a (signedText (immI k))
  | .li a k => textImm i a (signedText (immI k))
  | .beq a b k => text2 i a b ++ ", " ++ signedText (immB k)
  | .bne a b k => text2 i a b ++ ", " ++ signedText (immB k)
  | .bz a _ k => textImm i a (signedText (immB k))
  | .bnz a _ k => textImm i a (signedText (immB k))
  | .blt a b k => text2 i a b ++ ", " ++ signedText (immB k)
  | .bge a b k => text2 i a b ++ ", " ++ signedText (immB k)
  | .bltu a b k => text2 i a b ++ ", " ++ signedText (immB k)
  | .bgeu a b k => text2 i a b ++ ", " ++ signedText (immB k)
  | .sb base data k => textMem i data base k
  | .sw base data k => textMem i data base k
  | .lb rd base k => textMem i rd base k
  | .lw rd base k => textMem i rd base k
  | .lbu rd base k => textMem i rd base k
  | .j _ k => "J " ++ signedText (immJ k)
  | .jal a k => textImm i a (signedText (immJ k))
  | .lui a k => textImm i a (toString k.toNat)
  | .auipc a k => textImm i a (toString k.toNat)
  | .ecall svc => "ECALL " ++ toString svc.toNat

end Sys2Proof.Machine
end

