-- ==== Sys2Proof/Safety.lean ====
section
/-! DEFINITION. What counts as a safe state, and the tables of the spec that claims compare the machine with. -/

namespace Sys2Proof

open Machine

/-- The invariant of the machine: memory is in its canonical form, and the stop reason is `none` exactly while the CORE is
not halted (10_state.md R31, R32). -/
def Machine.State.inv (s : State) : Bool := s.mem.wf && (s.halted == (s.stop != .none))

/-- The general registers an instruction may write (10_state.md R24). -/
def destinations : Instr → List Reg
  | .nop | .jr _ _ | .j _ _ => []
  | .add rd _ | .sub rd _ | .slt rd _ | .sltu rd _ | .sll rd _ | .srl rd _ | .sra rd _ | .or rd _ | .and rd _ | .xor rd _
  | .mv rd _ | .jalr rd _ => [rd]
  | .addi rd _ | .slti rd _ | .sltui rd _ | .slli rd _ | .srli rd _ | .srai rd _ | .ori rd _ | .andi rd _ | .xori rd _
  | .li rd _ => [rd]
  | .lb rd _ _ | .lw rd _ _ | .lbu rd _ _ => [rd]
  | .jal rd _ => if rd = .x0 then [] else [rd]
  | .lui rd _ | .auipc rd _ => [rd]
  | .beq _ _ _ | .bne _ _ _ | .bz _ _ _ | .bnz _ _ _ | .blt _ _ _ | .bge _ _ _ | .bltu _ _ _ | .bgeu _ _ _ => []
  | .sb _ _ _ | .sw _ _ _ => []
  | .ecall _ => [.x6]

/-- The Outcome column of 40_cycle.md R128. -/
inductive OutcomeClass where
  | next | nextOrFault | jumpOrNext | jump | dispatchPort
deriving DecidableEq, Repr, Inhabited

/-- The Outcome of every instruction (40_cycle.md R128). -/
def outcomeClass : Instr → OutcomeClass
  | .nop | .add _ _ | .sub _ _ | .slt _ _ | .sltu _ _ | .sll _ _ | .srl _ _ | .sra _ _ | .or _ _ | .and _ _ | .xor _ _
  | .mv _ _ => .next
  | .addi _ _ | .slti _ _ | .sltui _ _ | .slli _ _ | .srli _ _ | .srai _ _ | .ori _ _ | .andi _ _ | .xori _ _
  | .li _ _ => .next
  | .lb _ _ _ | .lw _ _ _ | .lbu _ _ _ | .sb _ _ _ | .sw _ _ _ => .nextOrFault
  | .lui _ _ | .auipc _ _ => .next
  | .beq _ _ _ | .bne _ _ _ | .bz _ _ _ | .bnz _ _ _ | .blt _ _ _ | .bge _ _ _ | .bltu _ _ _ | .bgeu _ _ _ => .jumpOrNext
  | .jr _ _ | .jalr _ _ | .j _ _ | .jal _ _ => .jump
  | .ecall _ => .dispatchPort

/-- The instructions that may write memory (20_memory.md R72). -/
def mayWriteMemory : Instr → Bool
  | .sb _ _ _ | .sw _ _ _ | .ecall _ => true
  | _ => false

/-- The instructions that copy a register into the PC (10_state.md R28). -/
def copiesRegisterToPc : Instr → Bool
  | .jr _ _ | .jalr _ _ => true
  | _ => false

/-- Whether an instruction is ECALL, the one the dispatch port handles (40_cycle.md R124). -/
def isEcall : Instr → Bool
  | .ecall _ => true
  | _ => false

/-- Whether an instruction is an I-format shift, whose immediate is an unsigned amount (30_encoding.md R92). -/
def isShiftImmediate : Instr → Bool
  | .slli _ _ | .srli _ _ | .srai _ _ => true
  | _ => false

/-- Every word `w` with `w & mask = bits` is the instruction `mk w` (30_encoding.md section 4). -/
def Encodes (mask bits : Word) (mk : Word → Instr) : Prop := ∀ w : Word, w &&& mask = bits → decode w = .instr (mk w)

/-- The register named by `w[8:6]`. -/
def regA (w : Word) : Reg := .ofBits (w.extractLsb' 6 3)

/-- The register named by `w[11:9]`. -/
def regB (w : Word) : Reg := .ofBits (w.extractLsb' 9 3)

/-- `exec i s` answers the state that differs from `s` in register `rd`, which holds `v`, and in the PC, which advances by
2: nothing else changes. -/
def WritesRegister (i : Instr) (s : State) (rd : Reg) (v : Word) : Prop :=
  exec i s = .next { s with x := s.x.set rd v, pc := s.pc + 2#16 }

/-- `exec i s` answers the state in which the fault `f` was taken: `halted` and `stop` are written, nothing else changes
(60_exceptions.md R279). -/
def TakesFault (i : Instr) (s : State) (f : CoreFault) : Prop :=
  exec i s = .next { s with halted := true, stop := .fault f }

/-- The word in memory at the PC (20_memory.md R60). -/
def wordAtPc (s : State) : Word := wordOfBytes (s.mem.byte s.pc.toNat) (s.mem.byte (s.pc.toNat + 1))

/-- The step reaches the fetch of a whole word: not halted, not at the image's end, the PC even (60_exceptions.md R281). -/
def fetches (s : State) : Bool := !s.halted && !atImageEnd s && decide (s.pc.toNat % 2 = 0)

end Sys2Proof
end

