-- ==== Sys2Proof/Certificates/Slice0/Obligations.lean ====
section
/-! DEFINITION. The statements for the provers. The rules they come from are named in each docstring and in OBLIGATIONS.json.
"The model's choice" marks what rests on a decision of 92_eei_decisions.md, on general knowledge, or on a log entry. -/

open Sys2Proof Sys2Proof.Machine

/-! Encoding -/

/-- Words of 95_test_vectors.md, one of every format at least, decode to the instruction they stand for. The field values
are the spec's general knowledge (log 4). -/
def Obligations.DecodesSpecWords : Prop :=
  decode 0x0000#16 = .instr .nop ∧
  decode 0x08C0#16 = .instr (.add .x3 .x4) ∧
  decode 0xCA40#16 = .instr (.jalr .x1 .x5) ∧
  decode 0x0B81#16 = .instr (.addi .x6 5#7) ∧
  decode 0x88D9#16 = .instr (.srai .x3 4#4) ∧
  decode 0x38C2#16 = .instr (.beq .x3 .x4 3#4) ∧
  decode 0x08CB#16 = .instr (.sw .x3 .x4 0#4) ∧
  decode 0x88CC#16 = .instr (.lw .x3 .x4 8#4) ∧
  decode 0x8845#16 = .instr (.jal .x1 32#9) ∧
  decode 0x80CE#16 = .instr (.auipc .x3 1#9) ∧
  decode 0x0287#16 = .instr (.ecall 10#10) ∧
  decode 0xFFFF#16 = .unknown .unknownSys

/-- Decoding the word of any well-formed instruction gives the instruction back, every operand at every value. -/
def Obligations.DecodeInvertsEncode : Prop := ∀ i : Instr, i.wellFormed = true → decode (encode i) = .instr i

/-- Every word that decodes to an instruction is that instruction's word, and the instruction is well-formed: no bit of a
word is dropped. That two words which differ only in a field no rule reads are two terms of Instr is the model's choice to
keep such a field as an operand (log 15): to the spec they are one instruction (30_encoding.md R107). -/
def Obligations.EncodeInvertsDecode : Prop :=
  ∀ (w : Word) (i : Instr), decode w = .instr i → encode i = w ∧ i.wellFormed = true

/-- R81: the low three bits of a word select the format. -/
def Obligations.LowBitsSelectFormat : Prop :=
  ∀ (w : Word) (i : Instr), decode w = .instr i →
    (i.format = .r ↔ w &&& 0x7#16 = 0b000#16) ∧ (i.format = .i ↔ w &&& 0x7#16 = 0b001#16) ∧
    (i.format = .b ↔ w &&& 0x7#16 = 0b010#16) ∧ (i.format = .s ↔ w &&& 0x7#16 = 0b011#16) ∧
    (i.format = .l ↔ w &&& 0x7#16 = 0b100#16) ∧ (i.format = .j ↔ w &&& 0x7#16 = 0b101#16) ∧
    (i.format = .u ↔ w &&& 0x7#16 = 0b110#16) ∧ (i.format = .sys ↔ w &&& 0x7#16 = 0b111#16)

/-- The R-format map of 30_encoding.md section 4, masks and matches as its table gives them, NOP ahead of ADD (D8), every
other word of opcode 000 UNKNOWN. The values are the spec's general knowledge (log 4). -/
def Obligations.RFormatOpcodeMap : Prop :=
  decode 0x0000#16 = .instr .nop ∧
  (∀ w : Word, w ≠ 0x0000#16 → w &&& 0xF03F#16 = 0x0000#16 → decode w = .instr (.add (regA w) (regB w))) ∧
  Encodes 0xF03F#16 0x1000#16 (fun w => .sub (regA w) (regB w)) ∧
  Encodes 0xF03F#16 0x2008#16 (fun w => .slt (regA w) (regB w)) ∧
  Encodes 0xF03F#16 0x3010#16 (fun w => .sltu (regA w) (regB w)) ∧
  Encodes 0xF03F#16 0x4018#16 (fun w => .sll (regA w) (regB w)) ∧
  Encodes 0xF03F#16 0x5018#16 (fun w => .srl (regA w) (regB w)) ∧
  Encodes 0xF03F#16 0x6018#16 (fun w => .sra (regA w) (regB w)) ∧
  Encodes 0xF03F#16 0x7020#16 (fun w => .or (regA w) (regB w)) ∧
  Encodes 0xF03F#16 0x8028#16 (fun w => .and (regA w) (regB w)) ∧
  Encodes 0xF03F#16 0x9030#16 (fun w => .xor (regA w) (regB w)) ∧
  Encodes 0xF03F#16 0xA038#16 (fun w => .mv (regA w) (regB w)) ∧
  Encodes 0xF03F#16 0xB000#16 (fun w => .jr (regA w) (w.extractLsb' 9 3)) ∧
  Encodes 0xF03F#16 0xC000#16 (fun w => .jalr (regA w) (regB w)) ∧
  (∀ w : Word, w &&& 0x7#16 = 0b000#16 →
    (∀ m ∈ [0x0000#16, 0x1000#16, 0x2008#16, 0x3010#16, 0x4018#16, 0x5018#16, 0x6018#16, 0x7020#16, 0x8028#16, 0x9030#16,
      0xA038#16, 0xB000#16, 0xC000#16], w &&& 0xF03F#16 ≠ m) →
    decode w = .unknown .unknownR)

/-- The I-format map of 30_encoding.md section 4; a shift word with another selector is UNKNOWN. The values are the spec's
general knowledge (log 4). -/
def Obligations.IFormatOpcodeMap : Prop :=
  Encodes 0x003F#16 0x0001#16 (fun w => .addi (regA w) (w.extractLsb' 9 7)) ∧
  Encodes 0x003F#16 0x0009#16 (fun w => .slti (regA w) (w.extractLsb' 9 7)) ∧
  Encodes 0x003F#16 0x0011#16 (fun w => .sltui (regA w) (w.extractLsb' 9 7)) ∧
  Encodes 0xE03F#16 0x2019#16 (fun w => .slli (regA w) (w.extractLsb' 9 4)) ∧
  Encodes 0xE03F#16 0x4019#16 (fun w => .srli (regA w) (w.extractLsb' 9 4)) ∧
  Encodes 0xE03F#16 0x8019#16 (fun w => .srai (regA w) (w.extractLsb' 9 4)) ∧
  Encodes 0x003F#16 0x0021#16 (fun w => .ori (regA w) (w.extractLsb' 9 7)) ∧
  Encodes 0x003F#16 0x0029#16 (fun w => .andi (regA w) (w.extractLsb' 9 7)) ∧
  Encodes 0x003F#16 0x0031#16 (fun w => .xori (regA w) (w.extractLsb' 9 7)) ∧
  Encodes 0x003F#16 0x0039#16 (fun w => .li (regA w) (w.extractLsb' 9 7)) ∧
  (∀ w : Word, w &&& 0x003F#16 = 0x0019#16 → (∀ m ∈ [0x2000#16, 0x4000#16, 0x8000#16], w &&& 0xE000#16 ≠ m) →
    decode w = .unknown .unknownI)

/-- The B-format map of 30_encoding.md section 4: the eight rows cover every word of opcode 010. The values are the spec's
general knowledge (log 4). -/
def Obligations.BFormatOpcodeMap : Prop :=
  Encodes 0x003F#16 0x0002#16 (fun w => .beq (regA w) (regB w) (w.extractLsb' 12 4)) ∧
  Encodes 0x003F#16 0x000A#16 (fun w => .bne (regA w) (regB w) (w.extractLsb' 12 4)) ∧
  Encodes 0x003F#16 0x0012#16 (fun w => .bz (regA w) (w.extractLsb' 9 3) (w.extractLsb' 12 4)) ∧
  Encodes 0x003F#16 0x001A#16 (fun w => .bnz (regA w) (w.extractLsb' 9 3) (w.extractLsb' 12 4)) ∧
  Encodes 0x003F#16 0x0022#16 (fun w => .blt (regA w) (regB w) (w.extractLsb' 12 4)) ∧
  Encodes 0x003F#16 0x002A#16 (fun w => .bge (regA w) (regB w) (w.extractLsb' 12 4)) ∧
  Encodes 0x003F#16 0x0032#16 (fun w => .bltu (regA w) (regB w) (w.extractLsb' 12 4)) ∧
  Encodes 0x003F#16 0x003A#16 (fun w => .bgeu (regA w) (regB w) (w.extractLsb' 12 4))

/-- The S- and L-format maps of 30_encoding.md section 4: a store's base is in bits 8:6 and its data in 11:9, a load's base
in bits 11:9; every other funct3 is UNKNOWN. The values are the spec's general knowledge (log 4). -/
def Obligations.StoreLoadOpcodeMap : Prop :=
  Encodes 0x003F#16 0x0003#16 (fun w => .sb (regA w) (regB w) (w.extractLsb' 12 4)) ∧
  Encodes 0x003F#16 0x000B#16 (fun w => .sw (regA w) (regB w) (w.extractLsb' 12 4)) ∧
  Encodes 0x003F#16 0x0004#16 (fun w => .lb (regA w) (regB w) (w.extractLsb' 12 4)) ∧
  Encodes 0x003F#16 0x000C#16 (fun w => .lw (regA w) (regB w) (w.extractLsb' 12 4)) ∧
  Encodes 0x003F#16 0x0024#16 (fun w => .lbu (regA w) (regB w) (w.extractLsb' 12 4)) ∧
  (∀ w : Word, w &&& 0x7#16 = 0b011#16 → (∀ m ∈ [0x0003#16, 0x000B#16], w &&& 0x003F#16 ≠ m) →
    decode w = .unknown .unknownS) ∧
  (∀ w : Word, w &&& 0x7#16 = 0b100#16 → (∀ m ∈ [0x0004#16, 0x000C#16, 0x0024#16], w &&& 0x003F#16 ≠ m) →
    decode w = .unknown .unknownL)

/-- The J- and U-format maps of 30_encoding.md section 4: bit 15 selects, the immediate is `w[14:9] ++ w[5:3]`. The polarity
of bit 15 is the spec's general knowledge (log 4). -/
def Obligations.JumpUpperOpcodeMap : Prop :=
  Encodes 0x8007#16 0x0005#16 (fun w => .j (w.extractLsb' 6 3) (w.extractLsb' 9 6 ++ w.extractLsb' 3 3)) ∧
  Encodes 0x8007#16 0x8005#16 (fun w => .jal (regA w) (w.extractLsb' 9 6 ++ w.extractLsb' 3 3)) ∧
  Encodes 0x8007#16 0x0006#16 (fun w => .lui (regA w) (w.extractLsb' 9 6 ++ w.extractLsb' 3 3)) ∧
  Encodes 0x8007#16 0x8006#16 (fun w => .auipc (regA w) (w.extractLsb' 9 6 ++ w.extractLsb' 3 3))

/-- R89, R103: a SYS word with funct3 = 000 is ECALL, its service number bits 15:6; every other SYS word is UNKNOWN. -/
def Obligations.SysFormatOpcodeMap : Prop :=
  Encodes 0x003F#16 0x0007#16 (fun w => .ecall (w.extractLsb' 6 10)) ∧
  (∀ w : Word, w &&& 0x7#16 = 0b111#16 → w.extractLsb' 3 3 ≠ 0b000#3 → decode w = .unknown .unknownSys)

/-- R91, R94, and the other immediates of 30_encoding.md section 3: the value of each format's immediate, with its range, read
from the word. -/
def Obligations.ImmediatesOfWords : Prop :=
  ∀ (w : Word) (i : Instr), decode w = .instr i →
    (i.format = .i → isShiftImmediate i = false → ∃ v : Word, (decodeRecord w).imm = some v ∧
      v.toInt = (w.extractLsb' 9 7).toInt ∧ -64 ≤ v.toInt ∧ v.toInt ≤ 63) ∧
    (i.format = .i → isShiftImmediate i = true → ∃ v : Word, (decodeRecord w).imm = some v ∧
      v.toNat = (w.extractLsb' 9 4).toNat ∧ v.toNat ≤ 15) ∧
    (i.format = .b → ∃ v : Word, (decodeRecord w).imm = some v ∧
      v.toInt = 2 * (w.extractLsb' 12 4).toInt ∧ -16 ≤ v.toInt ∧ v.toInt ≤ 14) ∧
    (i.format = .s ∨ i.format = .l → ∃ v : Word, (decodeRecord w).imm = some v ∧
      v.toInt = (w.extractLsb' 12 4).toInt ∧ -8 ≤ v.toInt ∧ v.toInt ≤ 7) ∧
    (i.format = .j → ∃ v : Word, (decodeRecord w).imm = some v ∧
      v.toInt = 2 * (w.extractLsb' 9 6 ++ w.extractLsb' 3 3).toInt ∧ -512 ≤ v.toInt ∧ v.toInt ≤ 510) ∧
    (i.format = .u → ∃ v : Word, (decodeRecord w).imm = some v ∧
      v.toNat = 128 * ((w.extractLsb' 9 6).toNat * 8 + (w.extractLsb' 3 3).toNat))

/-- R10: sign and zero extension of an `n`-bit field, as numbers, with the field in the low bits. -/
def Obligations.ExtensionOfFields : Prop :=
  ∀ (n : Nat) (v : BitVec n), 0 < n → n ≤ 16 →
    (v.msb = false → (sext v).toNat = v.toNat) ∧
    (v.msb = true → (sext v).toNat = v.toNat + (65536 - 2 ^ n)) ∧
    (sext v).extractLsb' 0 n = v ∧
    (zext v).toNat = v.toNat

/-! Results of the R, I, J and U formats -/

/-- The results of ADD to XOR in integer arithmetic (41_r_type.md, "Arithmetic and logic"), for every pair of registers and
values; the PC advances and nothing else changes. That a shift takes bits 3:0 of rs2 is the decision D11. That the term
`add x0 x0`, which no word decodes to, has ADD's meaning is the model's choice (log 14): the word of `ADD x0, x0` is NOP. -/
def Obligations.RegisterAluResults : Prop :=
  ∀ (s : State) (rd rs2 : Reg),
    let a := s.x.get rd
    let b := s.x.get rs2
    WritesRegister (.add rd rs2) s rd (BitVec.ofNat 16 (a.toNat + b.toNat)) ∧
    WritesRegister (.sub rd rs2) s rd (BitVec.ofInt 16 ((a.toNat : Int) - (b.toNat : Int))) ∧
    WritesRegister (.slt rd rs2) s rd (if a.toInt < b.toInt then 1#16 else 0#16) ∧
    WritesRegister (.sltu rd rs2) s rd (if a.toNat < b.toNat then 1#16 else 0#16) ∧
    WritesRegister (.sll rd rs2) s rd (BitVec.ofNat 16 (a.toNat * 2 ^ (b.toNat % 16))) ∧
    WritesRegister (.srl rd rs2) s rd (BitVec.ofNat 16 (a.toNat / 2 ^ (b.toNat % 16))) ∧
    WritesRegister (.sra rd rs2) s rd (BitVec.ofInt 16 (a.toInt / 2 ^ (b.toNat % 16))) ∧
    WritesRegister (.or rd rs2) s rd (a ||| b) ∧
    WritesRegister (.and rd rs2) s rd (a &&& b) ∧
    WritesRegister (.xor rd rs2) s rd (a ^^^ b)

/-- The results of ADDI to XORI and of LI in integer arithmetic (42_i_type.md), the immediate sign-extended, the shift
amount not; the PC advances and nothing else changes. SLTUI's sign extension is the decision D12. -/
def Obligations.ImmediateAluResults : Prop :=
  ∀ (s : State) (rd : Reg) (imm : BitVec 7) (shamt : BitVec 4),
    let a := s.x.get rd
    let k := BitVec.ofInt 16 imm.toInt
    WritesRegister (.addi rd imm) s rd (BitVec.ofInt 16 (a.toInt + imm.toInt)) ∧
    WritesRegister (.slti rd imm) s rd (if a.toInt < imm.toInt then 1#16 else 0#16) ∧
    WritesRegister (.sltui rd imm) s rd (if a.toNat < k.toNat then 1#16 else 0#16) ∧
    WritesRegister (.slli rd shamt) s rd (BitVec.ofNat 16 (a.toNat * 2 ^ shamt.toNat)) ∧
    WritesRegister (.srli rd shamt) s rd (BitVec.ofNat 16 (a.toNat / 2 ^ shamt.toNat)) ∧
    WritesRegister (.srai rd shamt) s rd (BitVec.ofInt 16 (a.toInt / 2 ^ shamt.toNat)) ∧
    WritesRegister (.ori rd imm) s rd (a ||| k) ∧
    WritesRegister (.andi rd imm) s rd (a &&& k) ∧
    WritesRegister (.xori rd imm) s rd (a ^^^ k) ∧
    WritesRegister (.li rd imm) s rd k

/-- MV copies rs2, LUI places the 9-bit immediate in bits 15:7, AUIPC adds it to the instruction's own address
(41_r_type.md, "Moves and register jumps"; 47_u_type.md); the PC advances and nothing else changes. -/
def Obligations.MoveAndUpperResults : Prop :=
  ∀ (s : State) (rd rs2 : Reg) (imm : BitVec 9),
    WritesRegister (.mv rd rs2) s rd (s.x.get rs2) ∧
    WritesRegister (.lui rd imm) s rd (BitVec.ofNat 16 (imm.toNat * 128)) ∧
    WritesRegister (.auipc rd imm) s rd (BitVec.ofNat 16 (s.pc.toNat + imm.toNat * 128))

/-- NOP advances the PC and changes nothing else, whatever x0 holds. A NOP apart from ADD is the decision D8. -/
def Obligations.NopAdvancesOnly : Prop := ∀ s : State, exec .nop s = .next { s with pc := s.pc + 2#16 }

/-- JR copies a register into the PC, odd values too; JALR jumps to the old value of rs2 and links `pc + 2`, also when
rd = rs2 (41_r_type.md, "Moves and register jumps"; the decisions D10 and D15). -/
def Obligations.RegisterJumpsAndLink : Prop :=
  ∀ (s : State) (rd rs2 : Reg) (ignored : BitVec 3),
    exec (.jr rd ignored) s = .next { s with pc := s.x.get rd } ∧
    exec (.jalr rd rs2) s = .next { s with pc := s.x.get rs2, x := s.x.set rd (s.pc + 2#16) }

/-- J and JAL jump to `pc_next + imm`, an even offset of -512 .. 510; JAL links `pc_next` unless rd is x0, J never links
(46_j_type.md; the decision D9). -/
def Obligations.RelativeJumpsAndLink : Prop :=
  ∀ (s : State) (rd : Reg) (ignored : BitVec 3) (imm : BitVec 9),
    let target := BitVec.ofInt 16 ((s.pc.toNat : Int) + 2 + 2 * imm.toInt)
    exec (.j ignored imm) s = .next { s with pc := target } ∧
    (rd ≠ .x0 → exec (.jal rd imm) s = .next { s with pc := target, x := s.x.set rd (s.pc + 2#16) }) ∧
    exec (.jal .x0 imm) s = .next { s with pc := target }

/-- R190, R191: every branch goes to `pc_next + imm` when its condition holds and to `pc_next` when not, and changes nothing
else; the operands are the fields of its word; from an even PC it stays even, and it reaches `pc - 14 .. pc + 16` only. -/
def Obligations.BranchesFollowConditions : Prop :=
  (∀ (s : State) (rs1 rs2 : Reg) (ignored : BitVec 3) (imm : BitVec 4),
    let a := s.x.get rs1
    let b := s.x.get rs2
    let dest : Bool → Word := fun c =>
      if c then BitVec.ofInt 16 ((s.pc.toNat : Int) + 2 + 2 * imm.toInt) else s.pc + 2#16
    exec (.beq rs1 rs2 imm) s = .next { s with pc := dest (decide (a = b)) } ∧
    exec (.bne rs1 rs2 imm) s = .next { s with pc := dest (decide (a ≠ b)) } ∧
    exec (.bz rs1 ignored imm) s = .next { s with pc := dest (decide (a.toNat = 0)) } ∧
    exec (.bnz rs1 ignored imm) s = .next { s with pc := dest (decide (a.toNat ≠ 0)) } ∧
    exec (.blt rs1 rs2 imm) s = .next { s with pc := dest (decide (a.toInt < b.toInt)) } ∧
    exec (.bge rs1 rs2 imm) s = .next { s with pc := dest (decide (a.toInt ≥ b.toInt)) } ∧
    exec (.bltu rs1 rs2 imm) s = .next { s with pc := dest (decide (a.toNat < b.toNat)) } ∧
    exec (.bgeu rs1 rs2 imm) s = .next { s with pc := dest (decide (a.toNat ≥ b.toNat)) }) ∧
  (∀ w : Word, w &&& 0x7#16 = 0b010#16 →
    (decodeRecord w).rs1 = some (regA w) ∧ (decodeRecord w).rs2 = some (regB w) ∧
    (decodeRecord w).imm = some (BitVec.ofInt 16 (2 * (w.extractLsb' 12 4).toInt))) ∧
  (∀ (i : Instr) (s t : State), i.format = .b → exec i s = .next t →
    (s.pc.toNat % 2 = 0 → t.pc.toNat % 2 = 0) ∧
    ∃ k : Int, -14 ≤ k ∧ k ≤ 16 ∧ t.pc = BitVec.ofInt 16 ((s.pc.toNat : Int) + k))

/-! Loads, stores and the memory port -/

/-- The effective address (20_memory.md sections 6 and 4): modulo 2^16 under `wrap`, the integer sum, in -8 .. 65542, under
`fault`. The parameter is the decision D13. -/
def Obligations.EffectiveAddresses : Prop :=
  ∀ (base : Word) (imm : BitVec 4),
    effectiveAddress .wrap base imm = ((base.toNat : Int) + imm.toInt) % 65536 ∧
    effectiveAddress .fault base imm = (base.toNat : Int) + imm.toInt ∧
    -8 ≤ effectiveAddress .fault base imm ∧ effectiveAddress .fault base imm ≤ 65542

/-- SB writes the low byte of rs2 at the effective address and no other byte, and changes nothing else but the PC
(44_s_type.md). Under `wrap` the range condition always holds. -/
def Obligations.StoreByteEffect : Prop :=
  ∀ (s : State) (rs1 rs2 : Reg) (imm : BitVec 4), s.mem.wf = true → 0 ≤ s.ea rs1 imm → s.ea rs1 imm ≤ 65535 →
    ∃ m : Memory, exec (.sb rs1 rs2 imm) s = .next { s with mem := m, pc := s.pc + 2#16 } ∧
      (m.byte (s.ea rs1 imm).toNat).toNat = (s.x.get rs2).toNat % 256 ∧
      ∀ a : Nat, a ≠ (s.ea rs1 imm).toNat → m.byte a = s.mem.byte a

/-- SW at an even address writes the two bytes of rs2, low byte first, and no other byte, and changes nothing else but the
PC (44_s_type.md). -/
def Obligations.StoreWordEffect : Prop :=
  ∀ (s : State) (rs1 rs2 : Reg) (imm : BitVec 4), s.mem.wf = true → 0 ≤ s.ea rs1 imm → s.ea rs1 imm ≤ 65534 →
    s.ea rs1 imm % 2 = 0 →
    ∃ m : Memory, exec (.sw rs1 rs2 imm) s = .next { s with mem := m, pc := s.pc + 2#16 } ∧
      (m.byte (s.ea rs1 imm).toNat).toNat = (s.x.get rs2).toNat % 256 ∧
      (m.byte ((s.ea rs1 imm).toNat + 1)).toNat = (s.x.get rs2).toNat / 256 ∧
      ∀ a : Nat, a ≠ (s.ea rs1 imm).toNat → a ≠ (s.ea rs1 imm).toNat + 1 → m.byte a = s.mem.byte a

/-- LB sign-extends and LBU zero-extends the byte at the effective address into rd; LW, at an even address, loads the two
bytes, low byte first; the PC advances and nothing else changes, no byte of memory either (45_l_type.md). -/
def Obligations.LoadEffects : Prop :=
  ∀ (s : State) (rd rs2 : Reg) (imm : BitVec 4), 0 ≤ s.ea rs2 imm →
    (s.ea rs2 imm ≤ 65535 →
      WritesRegister (.lb rd rs2 imm) s rd (BitVec.ofInt 16 (s.mem.byte (s.ea rs2 imm).toNat).toInt) ∧
      WritesRegister (.lbu rd rs2 imm) s rd (BitVec.ofNat 16 (s.mem.byte (s.ea rs2 imm).toNat).toNat)) ∧
    (s.ea rs2 imm ≤ 65534 → s.ea rs2 imm % 2 = 0 →
      WritesRegister (.lw rd rs2 imm) s rd
        (BitVec.ofNat 16 ((s.mem.byte (s.ea rs2 imm).toNat).toNat + 256 * (s.mem.byte ((s.ea rs2 imm).toNat + 1)).toNat)))

/-- load16 and store16 at an odd address fail with Misaligned; so LW and SW there, and the fetch at an odd PC, take that fault
(60_exceptions.md R273) and change nothing else (R279; the decision D17). They record the address, the PC and the word, none
at the fetch (R271; the decision D24); that the word is `encode` of the instruction is deduced (log 12). -/
def Obligations.OddAddressesAreMisaligned : Prop :=
  (∀ (m : Memory) (a : Int) (v : Word), a % 2 = 1 →
    load16 m a = .error (.misaligned a) ∧ store16 m a v = .error (.misaligned a)) ∧
  (∀ (s : State) (r q : Reg) (imm : BitVec 4), s.ea q imm % 2 = 1 →
    TakesFault (.lw r q imm) s (.misaligned (s.ea q imm) s.pc (some (encode (.lw r q imm)))) ∧
    TakesFault (.sw q r imm) s (.misaligned (s.ea q imm) s.pc (some (encode (.sw q r imm))))) ∧
  (∀ s : State, s.halted = false → atImageEnd s = false → s.pc.toNat % 2 = 1 →
    step s = .next { s with halted := true, stop := .fault (.misaligned (s.pc.toNat : Int) s.pc none) })

/-- An access outside 0 .. 0xFFFF, which only `ea_carry_policy = fault` can compute, takes OutOfBounds and changes nothing
else (60_exceptions.md R279; the decision D17); a halfword access is checked for alignment first (20_memory.md R57, R70; the
decisions D13 and D16). It records the address, the PC and the word (60_exceptions.md R271; the decision D24); that the word
is `encode` of the instruction is deduced (log 12). -/
def Obligations.OutOfBoundsAccessesFault : Prop :=
  ∀ (s : State) (r q : Reg) (imm : BitVec 4),
    (s.ea q imm < 0 ∨ 65535 < s.ea q imm →
      TakesFault (.lb r q imm) s (.outOfBounds (s.ea q imm) s.pc (some (encode (.lb r q imm)))) ∧
      TakesFault (.lbu r q imm) s (.outOfBounds (s.ea q imm) s.pc (some (encode (.lbu r q imm)))) ∧
      TakesFault (.sb q r imm) s (.outOfBounds (s.ea q imm) s.pc (some (encode (.sb q r imm))))) ∧
    (s.ea q imm < 0 ∨ 65534 < s.ea q imm → s.ea q imm % 2 = 0 →
      TakesFault (.lw r q imm) s (.outOfBounds (s.ea q imm) s.pc (some (encode (.lw r q imm)))) ∧
      TakesFault (.sw q r imm) s (.outOfBounds (s.ea q imm) s.pc (some (encode (.sw q r imm)))))

/-- Under `ea_carry_policy = wrap` no instruction but ECALL can raise OutOfBounds: what it raises, if anything, is Misaligned
(20_memory.md section 6, "Reachability of OutOfBounds"; the decision D13). -/
def Obligations.NoOutOfBoundsUnderWrap : Prop :=
  ∀ (i : Instr) (s t : State), s.params.eaCarryPolicy = .wrap → isEcall i = false → exec i s = .next t →
    t.stop = s.stop ∨ ∃ (a : Int) (pc : Word) (w : Option Word), t.stop = .fault (.misaligned a pc w)

/-- R225: an LW after an SW to the same computed address returns the stored value, for every pair of offsets and bases. -/
def Obligations.LoadAfterStoreReturnsValue : Prop :=
  ∀ (s : State) (rs1 rs2 rd base : Reg) (imm k : BitVec 4), s.mem.wf = true → 0 ≤ s.ea rs1 imm →
    s.ea rs1 imm ≤ 65534 → s.ea rs1 imm % 2 = 0 → s.ea base k = s.ea rs1 imm →
    ∃ t u : State, exec (.sw rs1 rs2 imm) s = .next t ∧ exec (.lw rd base k) t = .next u ∧
      u.x.get rd = s.x.get rs2 ∧ u.mem = t.mem

/-- load8 and load16 at every integer address (20_memory.md R52, R54), with their faults in the order given. An address below
0 is out of bounds too, as `ea_carry_policy = fault` (R70; the decision D13) and a host access (60_exceptions.md R271; the
decision D24) may compute one; alignment comes first there as well (R57; the decision D16). -/
def Obligations.MemoryPortLoads : Prop :=
  ∀ (m : Memory) (a : Int),
    (a < 0 ∨ 65536 < a + 1 → load8 m a = .error (.outOfBounds a)) ∧
    (0 ≤ a → a + 1 ≤ 65536 → load8 m a = .ok (m.byte a.toNat)) ∧
    (a % 2 = 1 → load16 m a = .error (.misaligned a)) ∧
    (a % 2 = 0 → a < 0 ∨ 65536 < a + 2 → load16 m a = .error (.outOfBounds a)) ∧
    (a % 2 = 0 → 0 ≤ a → a + 2 ≤ 65536 →
      load16 m a = .ok (BitVec.ofNat 16 ((m.byte a.toNat).toNat + 256 * (m.byte (a.toNat + 1)).toNat)))

/-- store8 at every integer address (20_memory.md R53; below 0: R70 and 60_exceptions.md R271, the decisions D13 and D24): it
writes its byte and no other, or fails and gives no memory; the value is the low byte of a word. -/
def Obligations.MemoryPortByteStore : Prop :=
  ∀ (m : Memory) (a : Int) (v : Word), m.wf = true →
    (a < 0 ∨ 65536 < a + 1 → store8 m a (lowByte v) = .error (.outOfBounds a)) ∧
    (0 ≤ a → a + 1 ≤ 65536 → ∃ m' : Memory, store8 m a (lowByte v) = .ok m' ∧ m'.wf = true ∧
      (m'.byte a.toNat).toNat = v.toNat % 256 ∧ ∀ c : Nat, c ≠ a.toNat → m'.byte c = m.byte c)

/-- store16 at every integer address (20_memory.md R55; below 0: R70 and 60_exceptions.md R271, the decisions D13 and D24): it
writes its two bytes, low byte first, and no other, or fails and gives no memory. That both checks come before either byte is
written is the decision D17, their order the decision D16. -/
def Obligations.MemoryPortWordStore : Prop :=
  ∀ (m : Memory) (a : Int) (v : Word), m.wf = true →
    (a % 2 = 1 → store16 m a v = .error (.misaligned a)) ∧
    (a % 2 = 0 → a < 0 ∨ 65536 < a + 2 → store16 m a v = .error (.outOfBounds a)) ∧
    (a % 2 = 0 → 0 ≤ a → a + 2 ≤ 65536 → ∃ m' : Memory, store16 m a v = .ok m' ∧ m'.wf = true ∧
      (m'.byte a.toNat).toNat = v.toNat % 256 ∧ (m'.byte (a.toNat + 1)).toNat = v.toNat / 256 ∧
      ∀ c : Nat, c ≠ a.toNat → c ≠ a.toNat + 1 → m'.byte c = m.byte c)

/-- What was stored is loaded, in little-endian order, also at mixed widths (20_memory.md section 3). -/
def Obligations.MixedWidthRoundTrips : Prop :=
  ∀ (m : Memory) (a : Nat) (lo hi : Byte) (v : Word), m.wf = true → a % 2 = 0 → a + 2 ≤ 65536 →
    (∃ m' : Memory, store16 m a v = .ok m' ∧ load16 m' a = .ok v ∧ load8 m' a = .ok (BitVec.ofNat 8 (v.toNat % 256)) ∧
      load8 m' ((a : Int) + 1) = .ok (BitVec.ofNat 8 (v.toNat / 256))) ∧
    (∃ m1 m2 : Memory, store8 m a lo = .ok m1 ∧ store8 m1 ((a : Int) + 1) hi = .ok m2 ∧
      load16 m2 a = .ok (BitVec.ofNat 16 (lo.toNat + 256 * hi.toNat)))

/-- Two canonical memories that read alike are the same data: the list form hides nothing (the model's choice of the form;
20_memory.md section 1). -/
def Obligations.CanonicalMemoriesAreEqual : Prop :=
  ∀ m m' : Memory, m.wf = true → m'.wf = true → (∀ a : Nat, a < 65536 → m.byte a = m'.byte a) → m = m'

/-! The register file -/

/-- Every register, x0 too, reads as the value last written to it, and a write changes no other; the two forms that do not
write x0 are NOP and JAL with rd = x0 (10_state.md section 1; the decisions D8 and D9). -/
def Obligations.NoRegisterIsHardwired : Prop :=
  (∀ (x : Regs) (r q : Reg) (v : Word), (x.set r v).get r = v ∧ (q ≠ r → (x.set r v).get q = x.get q)) ∧
  (∀ x y : Regs, (∀ r : Reg, x.get r = y.get r) → x = y) ∧
  (∀ (s t : State) (imm : BitVec 9), exec .nop s = .next t ∨ exec (.jal .x0 imm) s = .next t → t.x = s.x)

/-- R274: the RegisterFile port fails with InvalidRegister exactly outside 0 .. 7, and no instruction raises it. -/
def Obligations.InvalidRegisterOnlyAtThePort : Prop :=
  (∀ (s : State) (r : Reg) (v : Word), regGet s r.toBits.toNat = .ok (s.x.get r) ∧
    regSet s r.toBits.toNat v = .ok { s with x := s.x.set r v }) ∧
  (∀ (s : State) (idx : Nat) (v : Word), 7 < idx → regGet s idx = .error (.invalidRegister idx s.pc) ∧
    regSet s idx v = .error (.invalidRegister idx s.pc)) ∧
  (∀ (i : Instr) (s t : State), exec i s = .next t →
    t.stop = s.stop ∨ ∀ (idx : Nat) (pc : Word), t.stop ≠ .fault (.invalidRegister idx pc))

/-- The only general register an instruction can change is the one the table of 10_state.md section 1 gives it; those that
have none change none; ECALL changes a0 only when its service returns a value with success. -/
def Obligations.OnlyNamedDestinationsChange : Prop :=
  (∀ (i : Instr) (s t : State) (r : Reg), exec i s = .next t → r ∉ destinations i → t.x.get r = s.x.get r) ∧
  (∀ (i : Instr) (s t : State), exec i s = .next t → destinations i = [] → t.x = s.x) ∧
  (∀ (svc : BitVec 10) (k : Service) (r : ServiceResult) (s t : State), serviceAt s.params svc = some k →
    serviceReply k svc s = .returns r → exec (.ecall svc) s = .next t → t.x ≠ s.x →
    r.success = true ∧ ∃ v : Word, r.ret = some v ∧ t.x = s.x.set .x6 v)

/-! The whole machine -/

/-- No instruction but SB, SW and ECALL changes memory (20_memory.md section 6, "Writers of memory"). -/
def Obligations.OnlyStoresAndServicesWriteMemory : Prop :=
  ∀ (i : Instr) (s t : State), exec i s = .next t → mayWriteMemory i = false →
    t.mem = s.mem ∧ ∀ a : Nat, t.mem.byte a = s.mem.byte a

/-- Every instruction but ECALL answers a next state in every state: none is refused and none leaves the machine without a
next state (40_cycle.md section 2). That a load or store that faults answers a next state, the one of its fault entry, is the
model's reading of the Outcome Fault (log 10); that the states count halted ones is the model's choice (log 16). -/
def Obligations.EveryEngineInstructionAnswersNext : Prop :=
  ∀ (i : Instr) (s : State), isEcall i = false → ∃ t : State, exec i s = .next t

/-- The Outcome of every instruction (the table of 40_cycle.md section 2). Next is the PC advanced by 2, a fault leaves the PC
and records Misaligned, or, under `ea_carry_policy = fault`, OutOfBounds; UNKNOWN is IllegalInstruction. That a fault is a
next state is the model's reading (log 10). -/
def Obligations.OutcomesFollowTheTable : Prop :=
  (∀ (i : Instr) (s t : State), exec i s = .next t →
    (outcomeClass i = .next → t.pc = s.pc + 2#16 ∧ t.halted = s.halted ∧ t.stop = s.stop) ∧
    (outcomeClass i = .nextOrFault →
      (t.pc = s.pc + 2#16 ∧ t.halted = s.halted ∧ t.stop = s.stop) ∨
      (t.pc = s.pc ∧ t.halted = true ∧ ∃ (a : Int) (pc : Word) (w : Option Word), t.stop = .fault (.misaligned a pc w)) ∨
      (t.pc = s.pc ∧ t.halted = true ∧ s.params.eaCarryPolicy = .fault ∧
        ∃ (a : Int) (pc : Word) (w : Option Word), t.stop = .fault (.outOfBounds a pc w))) ∧
    (outcomeClass i = .jumpOrNext ∨ outcomeClass i = .jump → t.halted = s.halted ∧ t.stop = s.stop) ∧
    (outcomeClass i = .dispatchPort →
      (t.pc = s.pc + 2#16 ∧ t.halted = s.halted ∧ t.stop = s.stop) ∨ (t.pc = s.pc ∧ t.halted = true))) ∧
  (∀ (w : Word) (s : State), engineUnknown w s =
    .next { s with halted := true, stop := .fault (.illegalInstruction w s.pc) })

/-- Faults are precise: a step that ends in a fault leaves the registers, the PC and the parameters as they were, and memory
too, ServiceError's included; the one exception is the fault of an access that a service makes, before which the service may
have written memory (60_exceptions.md section 2; the decisions D17, D31). -/
def Obligations.FaultsArePrecise : Prop :=
  ∀ (s t : State) (f : CoreFault), s.stop = .none → step s = .next t → t.stop = .fault f →
    t.halted = true ∧ t.x = s.x ∧ t.pc = s.pc ∧ t.params = s.params ∧
    (t.mem = s.mem ∨ (∃ svc : BitVec 10, decode (wordAtPc s) = .instr (.ecall svc)) ∧
      ∃ (a : Int) (w : Option Word), f = .outOfBounds a s.pc w ∨ f = .misaligned a s.pc w) ∧
    ((∀ svc : BitVec 10, decode (wordAtPc s) ≠ .instr (.ecall svc)) →
      t = { s with halted := true, stop := .fault f })

/-- From an even PC only JR and JALR can make the PC odd (10_state.md section 2; the decision D15). -/
def Obligations.OnlyRegisterJumpsMakeThePcOdd : Prop :=
  ∀ (i : Instr) (s t : State), exec i s = .next t → copiesRegisterToPc i = false → s.pc.toNat % 2 = 0 →
    t.pc.toNat % 2 = 0

/-- No step writes a parameter (the model's choice to hold them in State, log 1; 00_scope.md section 3). -/
def Obligations.StepKeepsParameters : Prop := ∀ s t : State, step s = .next t → t.params = s.params

/-- R123, R124: a step whose bytes at the PC decode to an instruction is `exec` of it; ECALL goes to the dispatch port, every
other instruction and UNKNOWN to the engine. -/
def Obligations.StepRunsTheDecodedInstruction : Prop :=
  ∀ s : State, fetches s = true →
    (∀ i : Instr, decode (wordAtPc s) = .instr i → step s = exec i s) ∧
    (∀ svc : BitVec 10, decode (wordAtPc s) = .instr (.ecall svc) → step s = execEcall svc s) ∧
    (∀ i : Instr, decode (wordAtPc s) = .instr i → isEcall i = false → step s = engineExecute i s) ∧
    (∀ why : Reject, decode (wordAtPc s) = .unknown why → step s = engineUnknown (wordAtPc s) s)

/-- R132: a step whose word is UNKNOWN takes IllegalInstruction with the word and its address, and changes nothing else. -/
def Obligations.IllegalWordTakesIllegalInstruction : Prop :=
  ∀ (s : State) (why : Reject), fetches s = true → decode (wordAtPc s) = .unknown why →
    step s = .next { s with halted := true, stop := .fault (.illegalInstruction (wordAtPc s) s.pc) }

/-- R283: a halted CORE has no step, whatever its stop reason (no next state; log 9); reset gives a CORE that is not halted. -/
def Obligations.HaltedCoreHasNoStep : Prop :=
  (∀ s : State, s.halted = true → step s = .fault .halted) ∧
  (∀ p : Params, (State.resetWith p).halted = false)

/-- At or past the end of the image the step ends the run and changes nothing else, before any fetch, when
`end_of_image_stop` is true; when it is false there is no such stop (40_cycle.md section 1; the decision D23). -/
def Obligations.EndOfImageEndsTheRun : Prop :=
  ∀ s : State, s.halted = false →
    (s.params.endOfImageStop = true → s.params.imageLen ≤ s.pc.toNat →
      step s = .next { s with halted := true, stop := .endOfProgram s.pc }) ∧
    (∀ t : State, s.params.endOfImageStop = false ∨ s.pc.toNat < s.params.imageLen → s.stop = .none →
      step s = .next t → ∀ pc : Word, t.stop ≠ .endOfProgram pc)

/-- R126: the PC sequencer, for each Outcome: the register write and the memory of `W`, each if there is one, are the next
state's, the PC advances by 2 or goes to the target, and nothing else changes; or the fault is taken and nothing else
changes. -/
def Obligations.SequencerAppliesOutcomes : Prop :=
  ∀ (s : State) (w : Writes) (target : Word) (f : CoreFault),
    (∀ (x : Regs) (m : Memory), (w.reg = none → x = s.x) → (∀ (r : Reg) (v : Word), w.reg = some (r, v) → x = s.x.set r v) →
      (w.mem = none → m = s.mem) → (∀ n : Memory, w.mem = some n → m = n) →
      pcSequencer (.next w) s = { s with x := x, mem := m, pc := s.pc + 2#16 } ∧
      pcSequencer (.jump w target) s = { s with x := x, mem := m, pc := target }) ∧
    pcSequencer (.fault f) s = { s with halted := true, stop := .fault f } ∧
    (target = s.pc + 2#16 → pcSequencer (.jump w target) s = pcSequencer (.next w) s)

/-- Every step keeps the invariant: memory stays canonical, and the CORE is halted exactly when a stop reason is recorded,
from every state that meets it (10_state.md section 3; the model's form of memory). -/
def Obligations.StepKeepsInvariant : Prop := ∀ s t : State, s.inv = true → step s = .next t → t.inv = true

/-- The invariant holds after reset, under every value of the parameters. -/
def Obligations.ResetMeetsInvariant : Prop := State.reset.inv = true ∧ ∀ p : Params, (State.resetWith p).inv = true

/-- The invariant holds after every boot (70_reset_and_hazards.md section 2). -/
def Obligations.BootMeetsInvariant : Prop :=
  ∀ (p : Params) (host : List ServiceReply) (image : List Word) (s : State), boot p host image = .next s → s.inv = true

/-- The reset values (70_reset_and_hazards.md section 1): registers and PC zero but x2, which is the parameter of the decision
D18, every byte zero, not halted, no stop reason. That State.reset has the default parameters is the model's choice (log 2). -/
def Obligations.ResetState : Prop :=
  ∀ p : Params,
    (∀ r : Reg, r ≠ .x2 → (State.resetWith p).x.get r = 0x0000#16) ∧
    (State.resetWith p).x.get .x2 = p.spResetValue ∧
    (State.resetWith p).pc = 0x0000#16 ∧
    (∀ a : Nat, (State.resetWith p).mem.byte a = 0x00#8) ∧
    (State.resetWith p).halted = false ∧ (State.resetWith p).stop = .none ∧ (State.resetWith p).params = p ∧
    State.reset = State.resetWith defaultParams

/-- Boot resets, then loads the image little-endian from address 0 and sets its length; every byte past it is zero; an image
of more than 32768 words is refused (70_reset_and_hazards.md section 2; the decision D29). -/
def Obligations.BootLoadsTheImage : Prop :=
  ∀ (p : Params) (host : List ServiceReply) (image : List Word),
    (32768 < image.length → boot p host image = .refused (.imageTooLong image.length)) ∧
    (image.length ≤ 32768 → ∃ s : State, boot p host image = .next s ∧
      s.x = (State.resetWith p).x ∧ s.pc = 0x0000#16 ∧ s.halted = false ∧ s.stop = .none ∧
      s.params = { p with imageLen := 2 * image.length } ∧
      (∀ (k : Nat) (w : Word), image[k]? = some w →
        (s.mem.byte (2 * k)).toNat = w.toNat % 256 ∧ (s.mem.byte (2 * k + 1)).toNat = w.toNat / 256) ∧
      (∀ a : Nat, 2 * image.length ≤ a → s.mem.byte a = 0x00#8))

/-- R309: a step that runs a store is seen by the next fetch, without any fence, and, when it stores into itself, still runs
as fetched. After an SW the word of the fetch at its address is its value. After an SB the fetch of the halfword that holds its
address reads the stored byte in that byte's place, low at an even address and high at an odd one, and the other byte as it
was. -/
def Obligations.StoresAreSeenByTheNextFetch : Prop :=
  ∀ (s : State) (rs1 rs2 : Reg) (imm : BitVec 4), s.mem.wf = true → fetches s = true → 0 ≤ s.ea rs1 imm →
    (decode (wordAtPc s) = .instr (.sw rs1 rs2 imm) → s.ea rs1 imm ≤ 65534 → s.ea rs1 imm % 2 = 0 →
      ∃ t : State, step s = .next t ∧ t.pc = s.pc + 2#16 ∧ t.x = s.x ∧
        ∀ u : State, u.mem = t.mem → (u.pc.toNat : Int) = s.ea rs1 imm → fetch u = .ok (s.x.get rs2)) ∧
    (decode (wordAtPc s) = .instr (.sb rs1 rs2 imm) → s.ea rs1 imm ≤ 65535 →
      ∃ t : State, step s = .next t ∧ t.pc = s.pc + 2#16 ∧ t.x = s.x ∧
        (∀ u : State, u.mem = t.mem → (u.pc.toNat : Int) = s.ea rs1 imm → s.ea rs1 imm % 2 = 0 →
          fetch u = .ok (BitVec.ofNat 16
            ((s.x.get rs2).toNat % 256 + 256 * (s.mem.byte ((s.ea rs1 imm).toNat + 1)).toNat))) ∧
        (∀ u : State, u.mem = t.mem → (u.pc.toNat : Int) + 1 = s.ea rs1 imm → s.ea rs1 imm % 2 = 1 →
          fetch u = .ok (BitVec.ofNat 16
            ((s.mem.byte ((s.ea rs1 imm).toNat - 1)).toNat + 256 * ((s.x.get rs2).toNat % 256)))))

/-! ECALL and the dispatch port -/

/-- R257: an ECALL whose number is not in `svc_table` takes UnknownSyscall and changes nothing else. -/
def Obligations.UnknownServiceTakesUnknownSyscall : Prop :=
  ∀ (s : State) (svc : BitVec 10), serviceAt s.params svc = none →
    TakesFault (.ecall svc) s (.unknownSyscall svc s.pc)

/-- ECALL with the number `svc_exit` ends the run with `Exit(svc_exit)` and changes nothing else (48_sys.md, "The service
numbers"; the decision D19). With it, the map `svc_table` as ECALL asks it: the row `svc_exit`, then the row `svc_print_int`
where it has a number, then the other rows, the first that names the number (the order where rows meet is the model's, log 22);
`svc_exit` is 10 by default (log 3) and `svc_print_int` is open. -/
def Obligations.ProgramExitEndsTheRun : Prop :=
  (∀ s : State, exec (.ecall s.params.svcExit) s = .next { s with halted := true, stop := .exit s.params.svcExit }) ∧
  (∀ p : Params, serviceAt p p.svcExit = some .programExit ∧
    (∀ n : BitVec 10, n ≠ p.svcExit → p.svcPrintInt = some n → serviceAt p n = some .printInteger) ∧
    (∀ (n : BitVec 10) (k : Service) (before after : List (BitVec 10 × Service)), n ≠ p.svcExit → p.svcPrintInt ≠ some n →
      p.svcTable = before ++ (n, k) :: after → (∀ e ∈ before, e.1 ≠ n) → serviceAt p n = some k) ∧
    (∀ n : BitVec 10, n ≠ p.svcExit → p.svcPrintInt ≠ some n → (∀ e ∈ p.svcTable, e.1 ≠ n) → serviceAt p n = none)) ∧
  defaultParams.svcExit = 10#10 ∧ defaultParams.svcPrintInt = none

/-- The CORE's ECALL step (48_sys.md, "The instruction"), for every result the host may give: the service's memory, the return
value to a0 iff success and present, then the halt with its stop reason, or the advance; ServiceError, being a fault, leaves
memory as the step found it (60_exceptions.md section 2; the decision D17). That accesses come in order before the return
value is the model's (log 7), and so are the host's own fields `replies` and `calls` (log 5). -/
def Obligations.EcallAppliesTheResult : Prop :=
  (∀ (s : State) (svc : BitVec 10), serviceAt s.params svc = none →
    TakesFault (.ecall svc) s (.unknownSyscall svc s.pc)) ∧
  (∀ (s : State) (svc : BitVec 10) (k : Service) (r : ServiceResult) (m : Memory),
    serviceAt s.params svc = some k → serviceReply k svc s = .returns r →
    runAccesses s.mem r.accesses = (m, none) →
    ∃ t : State, exec (.ecall svc) s = .next t ∧ t.params = s.params ∧
      (r.halt = false ∨ r.success = true → t.mem = m) ∧
      (r.halt = true → r.success = false → t.mem = s.mem) ∧
      (∀ v : Word, r.success = true → r.ret = some v → t.x = s.x.set .x6 v) ∧
      (r.success = false ∨ r.ret = none → t.x = s.x) ∧
      (r.halt = true → t.halted = true ∧ t.pc = s.pc ∧
        (r.success = true → t.stop = .exit svc) ∧
        (r.success = false → t.stop = .fault (.serviceError svc r.diag s.pc))) ∧
      (r.halt = false → t.halted = s.halted ∧ t.stop = s.stop ∧ t.pc = s.pc + 2#16))

/-- A memory fault inside a service halts the CORE with that fault; the writes before it stay, the accesses after it do not
happen, no register is written and the PC stays (48_sys.md, "The instruction"; the decision D31). That the recorded word is
the ECALL's own is deduced (log 12), the order of the accesses the model's (log 7). -/
def Obligations.ServiceFaultKeepsEarlierWrites : Prop :=
  ∀ (s : State) (svc : BitVec 10) (k : Service) (r : ServiceResult) (before after : List ServiceAccess) (bad : ServiceAccess)
    (m : Memory) (e : MemFault),
    serviceAt s.params svc = some k → serviceReply k svc s = .returns r →
    r.accesses = before ++ bad :: after → runAccesses s.mem before = (m, none) → runAccess m bad = .error e →
    ∃ t : State, exec (.ecall svc) s = .next t ∧ t.mem = m ∧ t.x = s.x ∧ t.pc = s.pc ∧ t.params = s.params ∧
      t.halted = true ∧
      (∀ a : Int, e = .outOfBounds a → t.stop = .fault (.outOfBounds a s.pc (some (encode (.ecall svc))))) ∧
      (∀ a : Int, e = .misaligned a → t.stop = .fault (.misaligned a s.pc (some (encode (.ecall svc)))))

/-- A service reaches memory through the memory contract only (20_memory.md section 2; 48_sys.md, "The instruction"; the
decision D31): its loads leave memory and fail as the port's loads do, its stores are the port's stores, and its accesses are
made in order up to the first that fails. That they are a list made in order is the model's (log 7). -/
def Obligations.ServicesUseTheMemoryPort : Prop :=
  (∀ (m : Memory) (a : Int),
    (∀ b : Byte, load8 m a = .ok b → runAccess m (.load8 a) = .ok m) ∧
    (∀ e : MemFault, load8 m a = .error e → runAccess m (.load8 a) = .error e) ∧
    (∀ v : Word, load16 m a = .ok v → runAccess m (.load16 a) = .ok m) ∧
    (∀ e : MemFault, load16 m a = .error e → runAccess m (.load16 a) = .error e) ∧
    (∀ b : Byte, runAccess m (.store8 a b) = store8 m a b) ∧
    (∀ v : Word, runAccess m (.store16 a v) = store16 m a v)) ∧
  (∀ m : Memory, runAccesses m [] = (m, none)) ∧
  (∀ (m n : Memory) (x : ServiceAccess) (before after : List ServiceAccess), runAccesses m before = (n, none) →
    runAccesses m (before ++ after) = runAccesses n after ∧
    (∀ n' : Memory, runAccess n x = .ok n' → runAccesses m (before ++ x :: after) = runAccesses n' after) ∧
    (∀ e : MemFault, runAccess n x = .error e → runAccesses m (before ++ x :: after) = (n, some e)))

/-- A service that never returns leaves the CORE stuck in the ECALL: no next state (48_sys.md, "The service oracle"; log 8). -/
def Obligations.NeverReturningServiceIsStuck : Prop :=
  ∀ (s : State) (svc : BitVec 10) (k : Service), serviceAt s.params svc = some k →
    (serviceReply k svc s = .neverReturns ↔ exec (.ecall svc) s = .fault .serviceNeverReturns)

/-- R133, R277: the engine raises InternalContract on an ECALL, and no step of the CORE raises it. -/
def Obligations.InternalContractIsNeverRaised : Prop :=
  (∀ (s : State) (svc : BitVec 10), engineExecute (.ecall svc) s =
    .next { s with halted := true, stop := .fault (.internalContract (encode (.ecall svc)) s.pc) }) ∧
  (∀ s t : State, s.stop = .none → step s = .next t → ∀ w pc : Word, t.stop ≠ .fault (.internalContract w pc))

/-- The driver's loop (40_cycle.md section 2) ends exactly at a halted state, at once from one, and then `stop` holds a
reason; a larger cap changes nothing of an ended run; a run stopped by the cap has not ended. With no cap, the default, the loop stops
at one state at most, never for a cap, and it ends exactly where some cap lets it end (log 18). -/
def Obligations.DriverEndsAtTheHaltFlag : Prop :=
  (∀ (fuel : Nat) (s : State), s.halted = true → drive fuel s = .ended s) ∧
  (∀ (fuel : Nat) (s t : State), s.inv = true → drive fuel s = .ended t → t.halted = true ∧ t.stop ≠ .none) ∧
  (∀ (fuel more : Nat) (s t : State), drive fuel s = .ended t → drive (fuel + more) s = .ended t) ∧
  (∀ (fuel : Nat) (s t : State), drive fuel s = .capReached t → t.halted = false) ∧
  (∀ (fuel : Nat) (s : State) (r : DriveResult), StopsAt s r (some fuel) ↔ drive fuel s = r) ∧
  (∀ s t : State, StopsAt s (.ended t) ↔ ∃ fuel : Nat, drive fuel s = .ended t) ∧
  (∀ (s : State) (r q : DriveResult), StopsAt s r → StopsAt s q → r = q) ∧
  (∀ s t : State, ¬ StopsAt s (.capReached t))
end

