-- ==== Sys2Proof/Laws/Encoding.lean ====
section
/-! SUPPORT. The fields of an encoded word, format by format, and the round trip of register fields. -/

namespace Sys2Proof

@[simp] theorem ofBits_toBits (r : Reg) : Reg.ofBits r.toBits = r := by cases r <;> rfl

@[simp] theorem toBits_ofBits (b : BitVec 3) : (Reg.ofBits b).toBits = b := by revert b; decide

theorem toNat_append_add {n m : Nat} (x : BitVec n) (y : BitVec m) : (x ++ y).toNat = x.toNat * 2 ^ m + y.toNat := by
  rw [BitVec.toNat_append, ← Nat.shiftLeft_add_eq_or_of_lt y.isLt, Nat.shiftLeft_eq]

theorem toNat_field (w : Word) (lo len : Nat) : (field w lo len).toNat = w.toNat / 2 ^ lo % 2 ^ len := by
  rw [field, BitVec.extractLsb'_toNat, Nat.shiftRight_eq_div_pow]

section
variable (f4 i4 : BitVec 4) (b a f3 op sel3 : BitVec 3) (i7 : BitVec 7) (sel : BitVec 1) (i9 : BitVec 9) (svc : BitVec 10)

/-! The layouts of 30_encoding.md section 2 as numbers. -/

theorem toNat_encR : (encR f4 b a f3).toNat = f4.toNat * 4096 + b.toNat * 512 + a.toNat * 64 + f3.toNat * 8 := by
  refine (toNat_append_add _ _).trans ?_
  simp only [toNat_append_add]
  simp only [BitVec.toNat_ofNat]
  omega

theorem toNat_encI : (encI i7 a f3).toNat = i7.toNat * 512 + a.toNat * 64 + f3.toNat * 8 + 1 := by
  refine (toNat_append_add _ _).trans ?_
  simp only [toNat_append_add]
  simp only [BitVec.toNat_ofNat]
  omega

theorem toNat_encShift : (encShift sel3 i4 a).toNat = sel3.toNat * 8192 + i4.toNat * 512 + a.toNat * 64 + 25 := by
  refine (toNat_append_add _ _).trans ?_
  simp only [toNat_append_add]
  simp only [BitVec.toNat_ofNat]
  omega

theorem toNat_encBSL : (encBSL i4 b a f3 op).toNat =
    i4.toNat * 4096 + b.toNat * 512 + a.toNat * 64 + f3.toNat * 8 + op.toNat := by
  refine (toNat_append_add _ _).trans ?_
  simp only [toNat_append_add]
  omega

theorem toNat_encJU : (encJU sel i9 a op).toNat =
    sel.toNat * 32768 + i9.toNat / 8 * 512 + a.toNat * 64 + i9.toNat % 8 * 8 + op.toNat := by
  refine (toNat_append_add _ _).trans ?_
  simp only [toNat_append_add]
  have h := i9.isLt
  simp only [BitVec.extractLsb'_toNat, Nat.shiftRight_eq_div_pow]
  omega

theorem toNat_encSys : (encSys svc f3).toNat = svc.toNat * 64 + f3.toNat * 8 + 7 := by
  refine (toNat_append_add _ _).trans ?_
  simp only [toNat_append_add]
  simp only [BitVec.toNat_ofNat]
  omega

@[simp] theorem field_encR_op : field (encR f4 b a f3) 0 3 = 0b000#3 := by
  apply BitVec.eq_of_toNat_eq
  have h0 := f4.isLt
  have h1 := b.isLt
  have h2 := a.isLt
  have h3 := f3.isLt
  simp only [toNat_field, toNat_encR, BitVec.toNat_ofNat]
  omega
@[simp] theorem field_encR_f3 : field (encR f4 b a f3) 3 3 = f3 := by
  apply BitVec.eq_of_toNat_eq
  have h0 := f4.isLt
  have h1 := b.isLt
  have h2 := a.isLt
  have h3 := f3.isLt
  simp only [toNat_field, toNat_encR]
  omega
@[simp] theorem field_encR_a : field (encR f4 b a f3) 6 3 = a := by
  apply BitVec.eq_of_toNat_eq
  have h0 := f4.isLt
  have h1 := b.isLt
  have h2 := a.isLt
  have h3 := f3.isLt
  simp only [toNat_field, toNat_encR]
  omega
@[simp] theorem field_encR_b : field (encR f4 b a f3) 9 3 = b := by
  apply BitVec.eq_of_toNat_eq
  have h0 := f4.isLt
  have h1 := b.isLt
  have h2 := a.isLt
  have h3 := f3.isLt
  simp only [toNat_field, toNat_encR]
  omega
@[simp] theorem field_encR_f4 : field (encR f4 b a f3) 12 4 = f4 := by
  apply BitVec.eq_of_toNat_eq
  have h0 := f4.isLt
  have h1 := b.isLt
  have h2 := a.isLt
  have h3 := f3.isLt
  simp only [toNat_field, toNat_encR]
  omega
@[simp] theorem field_encI_op : field (encI i7 a f3) 0 3 = 0b001#3 := by
  apply BitVec.eq_of_toNat_eq
  have h0 := i7.isLt
  have h1 := a.isLt
  have h2 := f3.isLt
  simp only [toNat_field, toNat_encI, BitVec.toNat_ofNat]
  omega
@[simp] theorem field_encI_f3 : field (encI i7 a f3) 3 3 = f3 := by
  apply BitVec.eq_of_toNat_eq
  have h0 := i7.isLt
  have h1 := a.isLt
  have h2 := f3.isLt
  simp only [toNat_field, toNat_encI]
  omega
@[simp] theorem field_encI_a : field (encI i7 a f3) 6 3 = a := by
  apply BitVec.eq_of_toNat_eq
  have h0 := i7.isLt
  have h1 := a.isLt
  have h2 := f3.isLt
  simp only [toNat_field, toNat_encI]
  omega
@[simp] theorem field_encI_imm : field (encI i7 a f3) 9 7 = i7 := by
  apply BitVec.eq_of_toNat_eq
  have h0 := i7.isLt
  have h1 := a.isLt
  have h2 := f3.isLt
  simp only [toNat_field, toNat_encI]
  omega
@[simp] theorem field_encShift_op : field (encShift sel3 i4 a) 0 3 = 0b001#3 := by
  apply BitVec.eq_of_toNat_eq
  have h0 := sel3.isLt
  have h1 := i4.isLt
  have h2 := a.isLt
  simp only [toNat_field, toNat_encShift, BitVec.toNat_ofNat]
  omega
@[simp] theorem field_encShift_f3 : field (encShift sel3 i4 a) 3 3 = 0b011#3 := by
  apply BitVec.eq_of_toNat_eq
  have h0 := sel3.isLt
  have h1 := i4.isLt
  have h2 := a.isLt
  simp only [toNat_field, toNat_encShift, BitVec.toNat_ofNat]
  omega
@[simp] theorem field_encShift_a : field (encShift sel3 i4 a) 6 3 = a := by
  apply BitVec.eq_of_toNat_eq
  have h0 := sel3.isLt
  have h1 := i4.isLt
  have h2 := a.isLt
  simp only [toNat_field, toNat_encShift]
  omega
@[simp] theorem field_encShift_shamt : field (encShift sel3 i4 a) 9 4 = i4 := by
  apply BitVec.eq_of_toNat_eq
  have h0 := sel3.isLt
  have h1 := i4.isLt
  have h2 := a.isLt
  simp only [toNat_field, toNat_encShift]
  omega
@[simp] theorem field_encShift_sel : field (encShift sel3 i4 a) 13 3 = sel3 := by
  apply BitVec.eq_of_toNat_eq
  have h0 := sel3.isLt
  have h1 := i4.isLt
  have h2 := a.isLt
  simp only [toNat_field, toNat_encShift]
  omega
@[simp] theorem field_encBSL_op : field (encBSL i4 b a f3 op) 0 3 = op := by
  apply BitVec.eq_of_toNat_eq
  have h0 := i4.isLt
  have h1 := b.isLt
  have h2 := a.isLt
  have h3 := f3.isLt
  have h4 := op.isLt
  simp only [toNat_field, toNat_encBSL]
  omega
@[simp] theorem field_encBSL_f3 : field (encBSL i4 b a f3 op) 3 3 = f3 := by
  apply BitVec.eq_of_toNat_eq
  have h0 := i4.isLt
  have h1 := b.isLt
  have h2 := a.isLt
  have h3 := f3.isLt
  have h4 := op.isLt
  simp only [toNat_field, toNat_encBSL]
  omega
@[simp] theorem field_encBSL_a : field (encBSL i4 b a f3 op) 6 3 = a := by
  apply BitVec.eq_of_toNat_eq
  have h0 := i4.isLt
  have h1 := b.isLt
  have h2 := a.isLt
  have h3 := f3.isLt
  have h4 := op.isLt
  simp only [toNat_field, toNat_encBSL]
  omega
@[simp] theorem field_encBSL_b : field (encBSL i4 b a f3 op) 9 3 = b := by
  apply BitVec.eq_of_toNat_eq
  have h0 := i4.isLt
  have h1 := b.isLt
  have h2 := a.isLt
  have h3 := f3.isLt
  have h4 := op.isLt
  simp only [toNat_field, toNat_encBSL]
  omega
@[simp] theorem field_encBSL_imm : field (encBSL i4 b a f3 op) 12 4 = i4 := by
  apply BitVec.eq_of_toNat_eq
  have h0 := i4.isLt
  have h1 := b.isLt
  have h2 := a.isLt
  have h3 := f3.isLt
  have h4 := op.isLt
  simp only [toNat_field, toNat_encBSL]
  omega
@[simp] theorem field_encJU_op : field (encJU sel i9 a op) 0 3 = op := by
  apply BitVec.eq_of_toNat_eq
  have h0 := sel.isLt
  have h1 := i9.isLt
  have h2 := a.isLt
  have h3 := op.isLt
  simp only [toNat_field, toNat_encJU, Nat.reducePow]
  omega
@[simp] theorem field_encJU_lo : field (encJU sel i9 a op) 3 3 = i9.extractLsb' 0 3 := by
  apply BitVec.eq_of_toNat_eq
  have h0 := sel.isLt
  have h1 := i9.isLt
  have h2 := a.isLt
  have h3 := op.isLt
  simp only [toNat_field, toNat_encJU, BitVec.extractLsb'_toNat, Nat.shiftRight_eq_div_pow]
  omega
@[simp] theorem field_encJU_a : field (encJU sel i9 a op) 6 3 = a := by
  apply BitVec.eq_of_toNat_eq
  have h0 := sel.isLt
  have h1 := i9.isLt
  have h2 := a.isLt
  have h3 := op.isLt
  simp only [toNat_field, toNat_encJU, Nat.reducePow]
  omega
@[simp] theorem field_encJU_hi : field (encJU sel i9 a op) 9 6 = i9.extractLsb' 3 6 := by
  apply BitVec.eq_of_toNat_eq
  have h0 := sel.isLt
  have h1 := i9.isLt
  have h2 := a.isLt
  have h3 := op.isLt
  simp only [toNat_field, toNat_encJU, BitVec.extractLsb'_toNat, Nat.shiftRight_eq_div_pow]
  omega
@[simp] theorem field_encJU_sel : field (encJU sel i9 a op) 15 1 = sel := by
  apply BitVec.eq_of_toNat_eq
  have h0 := sel.isLt
  have h1 := i9.isLt
  have h2 := a.isLt
  have h3 := op.isLt
  have hq : i9.toNat / 8 < 64 := by omega
  have hr : i9.toNat % 8 < 8 := by omega
  simp only [toNat_field, toNat_encJU, Nat.reducePow]
  generalize i9.toNat / 8 = q at hq ⊢
  generalize i9.toNat % 8 = r at hr ⊢
  omega
@[simp] theorem field_encSys_op : field (encSys svc f3) 0 3 = 0b111#3 := by
  apply BitVec.eq_of_toNat_eq
  have h0 := svc.isLt
  have h1 := f3.isLt
  simp only [toNat_field, toNat_encSys, BitVec.toNat_ofNat]
  omega
@[simp] theorem field_encSys_f3 : field (encSys svc f3) 3 3 = f3 := by
  apply BitVec.eq_of_toNat_eq
  have h0 := svc.isLt
  have h1 := f3.isLt
  simp only [toNat_field, toNat_encSys]
  omega
@[simp] theorem field_encSys_svc : field (encSys svc f3) 6 10 = svc := by
  apply BitVec.eq_of_toNat_eq
  have h0 := svc.isLt
  have h1 := f3.isLt
  simp only [toNat_field, toNat_encSys]
  omega

/-! A word is the word of its fields. -/

variable (w : Word)

theorem encR_fields (h : (field w 0 3).toNat = 0) :
    encR (field w 12 4) (field w 9 3) (field w 6 3) (field w 3 3) = w := by
  have := w.isLt
  apply BitVec.eq_of_toNat_eq
  simp only [toNat_encR, toNat_field, Nat.reducePow] at *
  omega

theorem encI_fields (h : (field w 0 3).toNat = 1) : encI (field w 9 7) (field w 6 3) (field w 3 3) = w := by
  have := w.isLt
  apply BitVec.eq_of_toNat_eq
  simp only [toNat_encI, toNat_field, Nat.reducePow] at *
  omega

theorem encShift_fields (h : (field w 0 3).toNat = 1) (h3 : (field w 3 3).toNat = 3) :
    encShift (field w 13 3) (field w 9 4) (field w 6 3) = w := by
  have := w.isLt
  apply BitVec.eq_of_toNat_eq
  simp only [toNat_encShift, toNat_field, Nat.reducePow] at *
  omega

theorem encBSL_fields : encBSL (field w 12 4) (field w 9 3) (field w 6 3) (field w 3 3) (field w 0 3) = w := by
  have := w.isLt
  apply BitVec.eq_of_toNat_eq
  simp only [toNat_encBSL, toNat_field, Nat.reducePow] at *
  omega

theorem encJU_fields :
    encJU (field w 15 1) (field w 9 6 ++ field w 3 3) (field w 6 3) (field w 0 3) = w := by
  have := w.isLt
  apply BitVec.eq_of_toNat_eq
  have h3 : w.toNat / 8 % 8 < 8 := by omega
  simp only [toNat_encJU, toNat_append_add, toNat_field, Nat.reducePow] at *
  omega

theorem encSys_fields (h : (field w 0 3).toNat = 7) : encSys (field w 6 10) (field w 3 3) = w := by
  have := w.isLt
  apply BitVec.eq_of_toNat_eq
  simp only [toNat_encSys, toNat_field, Nat.reducePow] at *
  omega

end

theorem decode_zero : decode 0x0000#16 = .instr .nop := rfl

theorem decode_of_ne {w : Word} (h : w.toNat ≠ 0) : decode w = decodeFormat w := by
  have hw : w ≠ 0x0000#16 := by rintro rfl; exact h rfl
  simp [decode, hw]

/-- The two parts of the 9-bit immediate of the J and U formats, put together again. -/
@[simp] theorem imm9_parts (i9 : BitVec 9) : i9.extractLsb' 3 6 ++ i9.extractLsb' 0 3 = i9 := by
  apply BitVec.eq_of_toNat_eq
  have h := i9.isLt
  simp only [toNat_append_add, BitVec.extractLsb'_toNat, Nat.shiftRight_eq_div_pow]
  omega

end Sys2Proof
end

