-- ==== Sys2Proof/Laws/Memory.lean ====
section
/-! SUPPORT. The laws of memory: reading after writing, the canonical form and its preservation, and one lemma per operation
of the memory contract that says everything it can do. -/

namespace Sys2Proof.Machine

@[simp] theorem byte_reset (a : Nat) : Memory.byte Memory.reset a = 0x00#8 := rfl

@[simp] theorem wf_reset : Memory.wf Memory.reset = true := rfl

theorem wfFrom_cons (lo k : Nat) (b : Byte) (m : Memory) :
    Memory.wfFrom lo ((k, b) :: m) = true ↔ lo ≤ k ∧ k < 65536 ∧ b ≠ blankByte ∧ Memory.wfFrom (k + 1) m = true := by
  simp only [Memory.wfFrom, Bool.and_eq_true, decide_eq_true_eq, and_assoc]
  rfl

theorem wfFrom_mono {m : Memory} {lo lo' : Nat} (h : Memory.wfFrom lo m = true) (hl : lo' ≤ lo) :
    Memory.wfFrom lo' m = true := by
  cases m with
  | nil => rfl
  | cons e m =>
    obtain ⟨k, b⟩ := e
    rw [wfFrom_cons] at h ⊢
    exact ⟨hl.trans h.1, h.2⟩

/-- Below every listed address memory reads as blank. -/
theorem byte_of_lt {m : Memory} {lo a : Nat} (h : Memory.wfFrom lo m = true) (ha : a < lo) : m.byte a = blankByte := by
  induction m generalizing lo with
  | nil => rfl
  | cons e m ih =>
    obtain ⟨k, b⟩ := e
    rw [wfFrom_cons] at h
    have hk : k ≠ a := by omega
    simp only [Memory.byte, hk, if_false]
    exact ih h.2.2.2 (by omega)

theorem byte_nil (c : Nat) : Memory.byte [] c = blankByte := rfl

theorem byte_cons (k : Nat) (b : Byte) (m : Memory) (c : Nat) :
    Memory.byte ((k, b) :: m) c = if k = c then b else Memory.byte m c := rfl

theorem byte_setByte_from {m : Memory} {lo : Nat} (h : Memory.wfFrom lo m = true) (a c : Nat) (v : Byte) :
    Memory.byte (Memory.setByte m a v) c = if c = a then v else Memory.byte m c := by
  induction m generalizing lo with
  | nil =>
    simp only [Memory.setByte]
    by_cases hc : c = a
    · subst hc; by_cases hv : v = blankByte <;> simp [hv, byte_nil, byte_cons]
    · have hc' : a ≠ c := fun h => hc h.symm
      by_cases hv : v = blankByte <;> simp [hv, hc, hc', byte_nil, byte_cons]
  | cons e m ih =>
    obtain ⟨k, b⟩ := e
    rw [wfFrom_cons] at h
    have hm := h.2.2.2
    have below : ∀ c, c ≤ k → Memory.byte m c = blankByte := fun c hc => byte_of_lt hm (by omega)
    simp only [Memory.setByte]
    by_cases hlt : a < k
    · simp only [hlt, if_true]
      by_cases hc : c = a
      · subst hc
        have hb := below c (by omega)
        have hk : k ≠ c := by omega
        by_cases hv : v = blankByte <;> simp [byte_cons, hk, hb, hv]
      · have hc' : a ≠ c := fun h => hc h.symm
        by_cases hv : v = blankByte <;> simp [byte_cons, hc, hc', hv]
    · by_cases hak : a = k
      · subst hak
        have hb := below a (Nat.le_refl a)
        by_cases hc : c = a
        · subst hc; by_cases hv : v = blankByte <;> simp [byte_cons, hb, hv]
        · have hc' : a ≠ c := fun h => hc h.symm
          by_cases hv : v = blankByte <;> simp [byte_cons, hc, hc', hv]
      · simp only [hlt, hak, if_false, byte_cons, ih hm]
        by_cases hkc : k = c
        · have : c ≠ a := by omega
          simp [hkc, this]
        · simp [hkc]

/-- Reading after writing one byte. -/
theorem byte_setByte {m : Memory} (h : m.wf = true) (a c : Nat) (v : Byte) :
    (m.setByte a v).byte c = if c = a then v else m.byte c := byte_setByte_from h a c v

theorem wfFrom_setByte {m : Memory} {lo : Nat} (h : Memory.wfFrom lo m = true) {a : Nat} (hlo : lo ≤ a) (ha : a < 65536)
    (v : Byte) : Memory.wfFrom lo (m.setByte a v) = true := by
  induction m generalizing lo with
  | nil =>
    by_cases hv : v = blankByte
    · simp [Memory.setByte, hv, Memory.wfFrom]
    · simp only [Memory.setByte, hv, if_false, wfFrom_cons]
      exact ⟨hlo, ha, hv, rfl⟩
  | cons e m ih =>
    obtain ⟨k, b⟩ := e
    rw [wfFrom_cons] at h
    obtain ⟨h1, h2, h3, h4⟩ := h
    simp only [Memory.setByte]
    split
    · split
      · rw [wfFrom_cons]; exact ⟨h1, h2, h3, h4⟩
      · rename_i hlt hv
        rw [wfFrom_cons, wfFrom_cons]
        exact ⟨hlo, ha, hv, by omega, h2, h3, h4⟩
    · split
      · split
        · exact wfFrom_mono h4 (by omega)
        · rename_i hv
          rw [wfFrom_cons]; exact ⟨h1, h2, hv, h4⟩
      · rw [wfFrom_cons]
        exact ⟨h1, h2, h3, ih h4 (by omega)⟩

/-- Writing a byte keeps the canonical form. -/
theorem wf_setByte {m : Memory} (h : m.wf = true) {a : Nat} (ha : a < 65536) (v : Byte) : (m.setByte a v).wf = true :=
  wfFrom_setByte h (Nat.zero_le a) ha v

theorem byte_of_ge {m : Memory} {lo a : Nat} (h : Memory.wfFrom lo m = true) (ha : 65536 ≤ a) : m.byte a = blankByte := by
  induction m generalizing lo with
  | nil => rfl
  | cons e m ih =>
    obtain ⟨k, b⟩ := e
    rw [wfFrom_cons] at h
    have hk : k ≠ a := by omega
    simp only [Memory.byte, hk, if_false]
    exact ih h.2.2.2

/-- Writing a halfword keeps the canonical form. -/
theorem wf_setWord {m : Memory} (h : m.wf = true) {a : Nat} (ha : a + 1 < 65536) (v : Word) : (m.setWord a v).wf = true :=
  wf_setByte (wf_setByte h (by omega) _) ha _

/-- Reading after writing a halfword. -/
theorem byte_setWord {m : Memory} (h : m.wf = true) {a : Nat} (ha : a + 1 < 65536) (c : Nat) (v : Word) :
    (m.setWord a v).byte c = if c = a + 1 then highByte v else if c = a then lowByte v else m.byte c := by
  rw [Memory.setWord, byte_setByte (wf_setByte h (by omega) _), byte_setByte h]

@[simp] theorem outside_iff (a w : Int) : outside a w = true ↔ a < 0 ∨ 65536 < a + w := by simp [outside]

@[simp] theorem outside_false_iff (a w : Int) : outside a w = false ↔ 0 ≤ a ∧ a + w ≤ 65536 := by
  simp [outside]

@[simp] theorem isOdd_iff (a : Int) : isOdd a = true ↔ a % 2 = 1 := by simp [isOdd]

@[simp] theorem isOdd_false_iff (a : Int) : isOdd a = false ↔ a % 2 = 0 := by
  simp only [isOdd, beq_eq_false_iff_ne]; omega

/-- Everything load8 can do. -/
theorem load8_cases (m : Memory) (a : Int) :
    (0 ≤ a ∧ a ≤ 65535 ∧ load8 m a = .ok (m.byte a.toNat)) ∨
    ((a < 0 ∨ 65535 < a) ∧ load8 m a = .error (.outOfBounds a)) := by
  unfold load8
  cases h : outside a 1
  · rw [outside_false_iff] at h; exact .inl ⟨h.1, by omega, by simp⟩
  · rw [outside_iff] at h; exact .inr ⟨by omega, by simp⟩

/-- Everything store8 can do. -/
theorem store8_cases (m : Memory) (a : Int) (v : Byte) :
    (0 ≤ a ∧ a ≤ 65535 ∧ store8 m a v = .ok (m.setByte a.toNat v)) ∨
    ((a < 0 ∨ 65535 < a) ∧ store8 m a v = .error (.outOfBounds a)) := by
  unfold store8
  cases h : outside a 1
  · rw [outside_false_iff] at h; exact .inl ⟨h.1, by omega, by simp⟩
  · rw [outside_iff] at h; exact .inr ⟨by omega, by simp⟩

/-- Everything load16 can do. -/
theorem load16_cases (m : Memory) (a : Int) :
    (a % 2 = 0 ∧ 0 ≤ a ∧ a ≤ 65534 ∧ load16 m a = .ok (wordOfBytes (m.byte a.toNat) (m.byte (a.toNat + 1)))) ∨
    (a % 2 = 1 ∧ load16 m a = .error (.misaligned a)) ∨
    (a % 2 = 0 ∧ (a < 0 ∨ 65534 < a) ∧ load16 m a = .error (.outOfBounds a)) := by
  unfold load16
  cases h1 : isOdd a
  · rw [isOdd_false_iff] at h1
    cases h : outside a 2
    · rw [outside_false_iff] at h; exact .inl ⟨h1, h.1, by omega, by simp⟩
    · rw [outside_iff] at h; exact .inr (.inr ⟨h1, by omega, by simp⟩)
  · rw [isOdd_iff] at h1; exact .inr (.inl ⟨h1, by simp⟩)

/-- Everything store16 can do. -/
theorem store16_cases (m : Memory) (a : Int) (v : Word) :
    (a % 2 = 0 ∧ 0 ≤ a ∧ a ≤ 65534 ∧ store16 m a v = .ok (m.setWord a.toNat v)) ∨
    (a % 2 = 1 ∧ store16 m a v = .error (.misaligned a)) ∨
    (a % 2 = 0 ∧ (a < 0 ∨ 65534 < a) ∧ store16 m a v = .error (.outOfBounds a)) := by
  unfold store16
  cases h1 : isOdd a
  · rw [isOdd_false_iff] at h1
    cases h : outside a 2
    · rw [outside_false_iff] at h; exact .inl ⟨h1, h.1, by omega, by simp⟩
    · rw [outside_iff] at h; exact .inr (.inr ⟨h1, by omega, by simp⟩)
  · rw [isOdd_iff] at h1; exact .inr (.inl ⟨h1, by simp⟩)

/-- The loader and the ports keep the canonical form. -/
theorem wf_store8 {m m' : Memory} {a : Int} {v : Byte} (h : m.wf = true) (hs : store8 m a v = .ok m') : m'.wf = true := by
  rcases store8_cases m a v with ⟨h0, h1, he⟩ | ⟨_, he⟩ <;> rw [he] at hs
  · cases hs; exact wf_setByte h (by omega) v
  · cases hs

theorem wf_store16 {m m' : Memory} {a : Int} {v : Word} (h : m.wf = true) (hs : store16 m a v = .ok m') : m'.wf = true := by
  rcases store16_cases m a v with ⟨_, h0, h1, he⟩ | ⟨_, he⟩ | ⟨_, _, he⟩ <;> rw [he] at hs
  · cases hs; exact wf_setWord h (by omega) v
  · cases hs
  · cases hs

theorem toNat_wordOfBytes (lo hi : Byte) : (wordOfBytes lo hi).toNat = lo.toNat + 256 * hi.toNat := by
  simp only [wordOfBytes, BitVec.toNat_append]
  rw [← Nat.shiftLeft_add_eq_or_of_lt lo.isLt, Nat.shiftLeft_eq]; omega

@[simp] theorem toNat_lowByte (w : Word) : (lowByte w).toNat = w.toNat % 256 := by
  simp [lowByte, BitVec.extractLsb'_toNat]

@[simp] theorem toNat_highByte (w : Word) : (highByte w).toNat = w.toNat / 256 := by
  have := w.isLt
  simp only [highByte, BitVec.extractLsb'_toNat, Nat.shiftRight_eq_div_pow]
  omega

/-- The two bytes of a word, put together again. -/
@[simp] theorem wordOfBytes_bytes (w : Word) : wordOfBytes (lowByte w) (highByte w) = w := by
  apply BitVec.eq_of_toNat_eq
  rw [toNat_wordOfBytes, toNat_lowByte, toNat_highByte]
  omega

end Sys2Proof.Machine
end

