-- ==== Sys2Proof/Laws/Registers.lean ====
section
/-! SUPPORT. Reading after writing in the register file. -/

namespace Sys2Proof.Machine

@[simp] theorem get_set_self (x : Regs) (r : Reg) (v : Word) : (x.set r v).get r = v := by cases r <;> rfl

theorem get_set_of_ne (x : Regs) (r q : Reg) (v : Word) (h : q ≠ r) : (x.set r v).get q = x.get q := by
  cases r <;> cases q <;> first | rfl | exact absurd rfl h

theorem regs_ext (x y : Regs) (h : ∀ r, x.get r = y.get r) : x = y := by
  cases x; cases y
  simp only [Regs.mk.injEq]
  exact ⟨h .x0, h .x1, h .x2, h .x3, h .x4, h .x5, h .x6, h .x7⟩

@[simp] theorem get_reset (v : Word) (r : Reg) : (Regs.reset v).get r = if r = .x2 then v else 0x0000#16 := by
  cases r <;> rfl

end Sys2Proof.Machine
end

