-- ==== Sys2Proof/Laws/State.lean ====
section
/-! SUPPORT. One lemma per field per update of State: no later proof unfolds a record update. -/

namespace Sys2Proof.Machine

section
variable (s : State) (w : Writes) (f : CoreFault) (v : Word)

@[simp] theorem setPC_x : (setPC s v).x = s.x := rfl
@[simp] theorem setPC_pc : (setPC s v).pc = v := rfl
@[simp] theorem setPC_mem : (setPC s v).mem = s.mem := rfl
@[simp] theorem setPC_halted : (setPC s v).halted = s.halted := rfl
@[simp] theorem setPC_stop : (setPC s v).stop = s.stop := rfl
@[simp] theorem setPC_params : (setPC s v).params = s.params := rfl
@[simp] theorem setPC_replies : (setPC s v).replies = s.replies := rfl
@[simp] theorem setPC_calls : (setPC s v).calls = s.calls := rfl

@[simp] theorem applyWrites_pc : (applyWrites w s).pc = s.pc := rfl
@[simp] theorem applyWrites_mem : (applyWrites w s).mem = w.mem.getD s.mem := rfl
@[simp] theorem applyWrites_halted : (applyWrites w s).halted = s.halted := rfl
@[simp] theorem applyWrites_stop : (applyWrites w s).stop = s.stop := rfl
@[simp] theorem applyWrites_params : (applyWrites w s).params = s.params := rfl
@[simp] theorem applyWrites_replies : (applyWrites w s).replies = s.replies := rfl
@[simp] theorem applyWrites_calls : (applyWrites w s).calls = s.calls := rfl
@[simp] theorem applyWrites_none : applyWrites {} s = s := rfl
@[simp] theorem applyWrites_reg (r : Reg) : applyWrites { reg := some (r, v) } s = { s with x := s.x.set r v } := rfl
@[simp] theorem applyWrites_store (m : Memory) : applyWrites { mem := some m } s = { s with mem := m } := rfl

@[simp] theorem takeFault_x : (takeFault f s).x = s.x := rfl
@[simp] theorem takeFault_pc : (takeFault f s).pc = s.pc := rfl
@[simp] theorem takeFault_mem : (takeFault f s).mem = s.mem := rfl
@[simp] theorem takeFault_halted : (takeFault f s).halted = true := rfl
@[simp] theorem takeFault_stop : (takeFault f s).stop = .fault f := rfl
@[simp] theorem takeFault_params : (takeFault f s).params = s.params := rfl
@[simp] theorem takeFault_replies : (takeFault f s).replies = s.replies := rfl
@[simp] theorem takeFault_calls : (takeFault f s).calls = s.calls := rfl

@[simp] theorem stopAtImageEnd_x : (stopAtImageEnd s).x = s.x := rfl
@[simp] theorem stopAtImageEnd_pc : (stopAtImageEnd s).pc = s.pc := rfl
@[simp] theorem stopAtImageEnd_mem : (stopAtImageEnd s).mem = s.mem := rfl
@[simp] theorem stopAtImageEnd_halted : (stopAtImageEnd s).halted = true := rfl
@[simp] theorem stopAtImageEnd_stop : (stopAtImageEnd s).stop = .endOfProgram s.pc := rfl
@[simp] theorem stopAtImageEnd_params : (stopAtImageEnd s).params = s.params := rfl

end

section
variable (s : State) (r : ServiceResult) (k : BitVec 10)

@[simp] theorem applyReturn_pc : (applyReturn r s).pc = s.pc := by unfold applyReturn; split <;> rfl
@[simp] theorem applyReturn_mem : (applyReturn r s).mem = s.mem := by unfold applyReturn; split <;> rfl
@[simp] theorem applyReturn_halted : (applyReturn r s).halted = s.halted := by unfold applyReturn; split <;> rfl
@[simp] theorem applyReturn_stop : (applyReturn r s).stop = s.stop := by unfold applyReturn; split <;> rfl
@[simp] theorem applyReturn_params : (applyReturn r s).params = s.params := by unfold applyReturn; split <;> rfl

@[simp] theorem afterCall_x : (afterCall k s).x = s.x := by unfold afterCall; split <;> rfl
@[simp] theorem afterCall_pc : (afterCall k s).pc = s.pc := by unfold afterCall; split <;> rfl
@[simp] theorem afterCall_mem : (afterCall k s).mem = s.mem := by unfold afterCall; split <;> rfl
@[simp] theorem afterCall_halted : (afterCall k s).halted = s.halted := by unfold afterCall; split <;> rfl
@[simp] theorem afterCall_stop : (afterCall k s).stop = s.stop := by unfold afterCall; split <;> rfl
@[simp] theorem afterCall_params : (afterCall k s).params = s.params := by unfold afterCall; split <;> rfl
@[simp] theorem afterCall_pcNext : (afterCall k s).pcNext = s.pcNext := by simp [State.pcNext]

end

@[simp] theorem resetWith_x (p : Params) : (State.resetWith p).x = Regs.reset p.spResetValue := rfl
@[simp] theorem resetWith_pc (p : Params) : (State.resetWith p).pc = 0x0000#16 := rfl
@[simp] theorem resetWith_mem (p : Params) : (State.resetWith p).mem = Memory.reset := rfl
@[simp] theorem resetWith_halted (p : Params) : (State.resetWith p).halted = false := rfl
@[simp] theorem resetWith_stop (p : Params) : (State.resetWith p).stop = .none := rfl
@[simp] theorem resetWith_params (p : Params) : (State.resetWith p).params = p := rfl

end Sys2Proof.Machine
end

