-- ==== Sys2Proof/Laws/Ops.lean ====
section
/-! SUPPORT. One lemma per operand form and per shared operation that says everything it can do. -/

namespace Sys2Proof.Machine

/-! Operand forms -/

theorem toNat_zext {n : Nat} (v : BitVec n) (h : n ≤ 16) : (zext v).toNat = v.toNat := by
  rw [zext, BitVec.toNat_setWidth, Nat.mod_eq_of_lt]
  exact lt_of_lt_of_le v.isLt (Nat.pow_le_pow_right (by omega) h)

theorem allOnes_getElem : ∀ k : Fin 16, (65535#16)[k.val] = true := by decide

theorem sext_eq_signExtend {n : Nat} (v : BitVec n) (h : n ≤ 16) : sext v = v.signExtend 16 := by
  apply BitVec.eq_of_getElem_eq
  intro i hi
  rw [BitVec.getElem_signExtend, sext]
  cases hm : v.msb
  · by_cases hin : i < n
    · simp [hin, BitVec.getLsbD_eq_getElem]
    · simp [hin, BitVec.getLsbD_of_ge v i (by omega)]
  · by_cases hin : i < n
    · simp [hin, BitVec.getLsbD_eq_getElem]
    · have h16 : i - n < 16 := by omega
      have : (65535#16)[i - n] = true := allOnes_getElem ⟨i - n, h16⟩
      simp [hin, this]

theorem toInt_sext {n : Nat} (v : BitVec n) (h : n ≤ 16) : (sext v).toInt = v.toInt := by
  rw [sext_eq_signExtend v h, BitVec.toInt_signExtend_of_le h]

theorem toInt_immI (imm : BitVec 7) : (immI imm).toInt = imm.toInt := toInt_sext imm (by omega)

theorem toInt_immSL (imm : BitVec 4) : (immSL imm).toInt = imm.toInt := toInt_sext imm (by omega)

theorem toInt_immB (imm : BitVec 4) : (immB imm).toInt = 2 * imm.toInt := by revert imm; decide

theorem toInt_immJ (imm : BitVec 9) : (immJ imm).toInt = 2 * imm.toInt := by
  rw [immJ, toInt_sext _ (by omega), BitVec.toInt_eq_toNat_cond, BitVec.toInt_eq_toNat_cond, BitVec.toNat_append]
  simp only [BitVec.toNat_ofNat, Nat.shiftLeft_eq]
  have := imm.isLt
  split <;> split <;> simp_all <;> omega

theorem toNat_immShamt (shamt : BitVec 4) : (immShamt shamt).toNat = shamt.toNat := toNat_zext shamt (by omega)

theorem toNat_shiftAmount (v : Word) : (shiftAmount v).toNat = v.toNat % 16 := by
  rw [shiftAmount, toNat_zext _ (by omega)]
  simp [BitVec.extractLsb'_toNat]

theorem toNat_immU (imm : BitVec 9) : (immU imm).toNat = imm.toNat * 128 := by
  have := imm.isLt
  rw [immU, BitVec.toNat_shiftLeft, toNat_zext _ (by omega), Nat.shiftLeft_eq]
  omega

/-! Comparisons -/

theorem s16_eq_toInt (v : Word) : s16 v = v.toInt := by
  rw [s16, BitVec.toInt_eq_msb_cond]
  cases v.msb <;> simp

@[simp] theorem ltS_eq (a b : Word) : ltS a b = decide (a.toInt < b.toInt) := by simp only [ltS, s16_eq_toInt]

@[simp] theorem geS_eq (a b : Word) : geS a b = decide (a.toInt ≥ b.toInt) := by simp only [geS, s16_eq_toInt]

/-! The Outcome and the shared operations -/

theorem retire_next_iff (o : EngineOutcome) (s t : State) : retire o s = .next t ↔ pcSequencer o s = t := by
  simp [retire]

@[simp] theorem pcSequencer_next (w : Writes) (s : State) :
    pcSequencer (.next w) s = setPC (applyWrites w s) s.pcNext := rfl

@[simp] theorem pcSequencer_jump (w : Writes) (target : Word) (s : State) :
    pcSequencer (.jump w target) s = setPC (applyWrites w s) target := rfl

@[simp] theorem pcSequencer_fault (f : CoreFault) (s : State) : pcSequencer (.fault f) s = takeFault f s := rfl

/-- A byte load writes rd from the byte at the effective address, or takes OutOfBounds. -/
theorem loadByte_cases (extend : Byte → Word) (word : Word) (rd base : Reg) (imm : BitVec 4) (s : State) :
    (0 ≤ s.ea base imm ∧ s.ea base imm ≤ 65535 ∧
      loadByte extend word rd base imm s = .next { reg := some (rd, extend (s.mem.byte (s.ea base imm).toNat)) }) ∨
    ((s.ea base imm < 0 ∨ 65535 < s.ea base imm) ∧
      loadByte extend word rd base imm s = .fault (.outOfBounds (s.ea base imm) s.pc (some word))) := by
  rcases load8_cases s.mem (s.ea base imm) with ⟨h0, h1, h⟩ | ⟨hr, h⟩
  · exact .inl ⟨h0, h1, by simp [loadByte, h]⟩
  · exact .inr ⟨hr, by simp [loadByte, h, MemFault.raised]⟩

/-- A halfword load writes rd from the two bytes at an even address, or takes Misaligned or OutOfBounds. -/
theorem loadWord_cases (word : Word) (rd base : Reg) (imm : BitVec 4) (s : State) :
    (s.ea base imm % 2 = 0 ∧ 0 ≤ s.ea base imm ∧ s.ea base imm ≤ 65534 ∧
      loadWord word rd base imm s = .next { reg := some (rd,
        wordOfBytes (s.mem.byte (s.ea base imm).toNat) (s.mem.byte ((s.ea base imm).toNat + 1))) }) ∨
    (s.ea base imm % 2 = 1 ∧ loadWord word rd base imm s = .fault (.misaligned (s.ea base imm) s.pc (some word))) ∨
    (s.ea base imm % 2 = 0 ∧ (s.ea base imm < 0 ∨ 65534 < s.ea base imm) ∧
      loadWord word rd base imm s = .fault (.outOfBounds (s.ea base imm) s.pc (some word))) := by
  rcases load16_cases s.mem (s.ea base imm) with ⟨h2, h0, h1, h⟩ | ⟨h2, h⟩ | ⟨h2, hr, h⟩
  · exact .inl ⟨h2, h0, h1, by simp [loadWord, h]⟩
  · exact .inr (.inl ⟨h2, by simp [loadWord, h, MemFault.raised]⟩)
  · exact .inr (.inr ⟨h2, hr, by simp [loadWord, h, MemFault.raised]⟩)

/-- A byte store writes the low byte of the data register, or takes OutOfBounds. -/
theorem storeByte_cases (word : Word) (base data : Reg) (imm : BitVec 4) (s : State) :
    (0 ≤ s.ea base imm ∧ s.ea base imm ≤ 65535 ∧
      storeByte word base data imm s =
        .next { mem := some (s.mem.setByte (s.ea base imm).toNat (lowByte (s.x.get data))) }) ∨
    ((s.ea base imm < 0 ∨ 65535 < s.ea base imm) ∧
      storeByte word base data imm s = .fault (.outOfBounds (s.ea base imm) s.pc (some word))) := by
  rcases store8_cases s.mem (s.ea base imm) (lowByte (s.x.get data)) with ⟨h0, h1, h⟩ | ⟨hr, h⟩
  · exact .inl ⟨h0, h1, by simp [storeByte, h]⟩
  · exact .inr ⟨hr, by simp [storeByte, h, MemFault.raised]⟩

/-- A halfword store writes the two bytes of the data register at an even address, or takes Misaligned or OutOfBounds. -/
theorem storeWord_cases (word : Word) (base data : Reg) (imm : BitVec 4) (s : State) :
    (s.ea base imm % 2 = 0 ∧ 0 ≤ s.ea base imm ∧ s.ea base imm ≤ 65534 ∧
      storeWord word base data imm s = .next { mem := some (s.mem.setWord (s.ea base imm).toNat (s.x.get data)) }) ∨
    (s.ea base imm % 2 = 1 ∧
      storeWord word base data imm s = .fault (.misaligned (s.ea base imm) s.pc (some word))) ∨
    (s.ea base imm % 2 = 0 ∧ (s.ea base imm < 0 ∨ 65534 < s.ea base imm) ∧
      storeWord word base data imm s = .fault (.outOfBounds (s.ea base imm) s.pc (some word))) := by
  rcases store16_cases s.mem (s.ea base imm) (s.x.get data) with ⟨h2, h0, h1, h⟩ | ⟨h2, h⟩ | ⟨h2, hr, h⟩
  · exact .inl ⟨h2, h0, h1, by simp [storeWord, h]⟩
  · exact .inr (.inl ⟨h2, by simp [storeWord, h, MemFault.raised]⟩)
  · exact .inr (.inr ⟨h2, hr, by simp [storeWord, h, MemFault.raised]⟩)

/-- Under `wrap` every effective address lies in the space (20_memory.md R71). -/
theorem ea_wrap_bounds (s : State) (h : s.params.eaCarryPolicy = .wrap) (base : Reg) (imm : BitVec 4) :
    0 ≤ s.ea base imm ∧ s.ea base imm ≤ 65535 := by
  have := (s.x.get base + immSL imm).isLt
  simp only [State.ea, effectiveAddress, h]
  omega

/-- The fetch reads the word at an even PC and takes Misaligned at an odd one; nothing else can happen (R71, R122). -/
theorem fetch_cases (s : State) :
    (s.pc.toNat % 2 = 0 ∧ fetch s = .ok (wordAtPc s)) ∨
    (s.pc.toNat % 2 = 1 ∧ fetch s = .error (.misaligned (s.pc.toNat : Int) s.pc none)) := by
  have := s.pc.isLt
  rcases load16_cases s.mem (s.pc.toNat : Int) with ⟨h2, _, _, h⟩ | ⟨h2, h⟩ | ⟨h2, hr, _⟩
  · exact .inl ⟨by omega, by simp [fetch, h, wordAtPc]⟩
  · exact .inr ⟨by omega, by simp [fetch, h, MemFault.raised]⟩
  · omega

/-- A service's accesses: the memory they leave is canonical if the memory before was. -/
theorem wf_runAccess {m m' : Memory} {a : ServiceAccess} (h : m.wf = true) (hr : runAccess m a = .ok m') :
    m'.wf = true := by
  cases a with
  | load8 addr => rcases load8_cases m addr with ⟨_, _, he⟩ | ⟨_, he⟩ <;> simp_all [runAccess]
  | load16 addr => rcases load16_cases m addr with ⟨_, _, _, he⟩ | ⟨_, he⟩ | ⟨_, _, he⟩ <;> simp_all [runAccess]
  | store8 addr val => exact wf_store8 h hr
  | store16 addr val => exact wf_store16 h hr

theorem wf_runAccesses {m : Memory} (h : m.wf = true) (as : List ServiceAccess) : (runAccesses m as).1.wf = true := by
  induction as generalizing m with
  | nil => exact h
  | cons a as ih =>
    unfold runAccesses
    split
    · exact ih (wf_runAccess h ‹_›)
    · exact h

end Sys2Proof.Machine
end

