-- ==== Sys2Proof/Laws/Exec.lean ====
section
/-! SUPPORT. What an instruction and a step can do, said once: every whole-machine claim follows from these lemmas without
unfolding a meaning again. -/

namespace Sys2Proof.Machine

/-- The shape of an instruction's Outcome: which register and memory it may write, when it jumps, which faults it takes. -/
inductive Shape (i : Instr) (s : State) : EngineOutcome → Prop where
  | next (reg : Option (Reg × Word)) (hr : ∀ p, reg = some p → p.1 ∈ destinations i)
      (hc : outcomeClass i ≠ .jump) : Shape i s (.next { reg := reg })
  | store (m : Memory) (hm : mayWriteMemory i = true) (hc : outcomeClass i = .nextOrFault)
      (hw : s.mem.wf = true → m.wf = true) : Shape i s (.next { mem := some m })
  | branch (imm : BitVec 4) (hc : outcomeClass i = .jumpOrNext) : Shape i s (.jump {} (s.pcNext + immB imm))
  | jump (reg : Option (Reg × Word)) (target : Word) (hr : ∀ p, reg = some p → p.1 ∈ destinations i)
      (hc : outcomeClass i = .jump) (ht : copiesRegisterToPc i = false → ∃ imm, target = s.pcNext + immJ imm) :
      Shape i s (.jump { reg := reg } target)
  | misaligned (a : Int) (w : Word) (hc : outcomeClass i = .nextOrFault) : Shape i s (.fault (.misaligned a s.pc (some w)))
  | outOfBounds (a : Int) (w : Word) (hc : outcomeClass i = .nextOrFault) (hp : s.params.eaCarryPolicy = .fault) :
      Shape i s (.fault (.outOfBounds a s.pc (some w)))

theorem policy_of_outside {s : State} {base : Reg} {imm : BitVec 4} (h : s.ea base imm < 0 ∨ 65535 < s.ea base imm) :
    s.params.eaCarryPolicy = .fault := by
  cases hp : s.params.eaCarryPolicy with
  | fault => rfl
  | wrap => have := ea_wrap_bounds s hp base imm; omega

theorem shape_write {i : Instr} {s : State} {rd : Reg} {v : Word} (hr : rd ∈ destinations i)
    (hc : outcomeClass i ≠ .jump) : Shape i s (.next { reg := some (rd, v) }) :=
  .next _ (by rintro _ ⟨⟩; exact hr) hc

theorem shape_branch {i : Instr} {s : State} (op : BranchOp) (a b : Word) (imm : BitVec 4)
    (hc : outcomeClass i = .jumpOrNext) : Shape i s (branch op a b imm s) := by
  unfold branch
  split
  · exact .branch imm hc
  · exact .next none (by simp) (by simp [hc])

theorem shape_loadByte {i : Instr} {s : State} (extend : Byte → Word) (w : Word) (rd base : Reg) (imm : BitVec 4)
    (hr : rd ∈ destinations i) (hc : outcomeClass i = .nextOrFault) : Shape i s (loadByte extend w rd base imm s) := by
  rcases loadByte_cases extend w rd base imm s with ⟨_, _, h⟩ | ⟨h1, h⟩ <;> rw [h]
  · exact shape_write hr (by simp [hc])
  · exact .outOfBounds _ _ hc (policy_of_outside h1)

theorem shape_loadWord {i : Instr} {s : State} (w : Word) (rd base : Reg) (imm : BitVec 4)
    (hr : rd ∈ destinations i) (hc : outcomeClass i = .nextOrFault) : Shape i s (loadWord w rd base imm s) := by
  rcases loadWord_cases w rd base imm s with ⟨_, _, _, h⟩ | ⟨_, h⟩ | ⟨_, h1, h⟩ <;> rw [h]
  · exact shape_write hr (by simp [hc])
  · exact .misaligned _ _ hc
  · exact .outOfBounds _ _ hc (policy_of_outside (base := base) (imm := imm) (by omega))

theorem shape_storeByte {i : Instr} {s : State} (w : Word) (base data : Reg) (imm : BitVec 4)
    (hm : mayWriteMemory i = true) (hc : outcomeClass i = .nextOrFault) : Shape i s (storeByte w base data imm s) := by
  rcases storeByte_cases w base data imm s with ⟨h0, h1, h⟩ | ⟨h1, h⟩ <;> rw [h]
  · exact .store _ hm hc (fun hw => wf_setByte hw (by omega) _)
  · exact .outOfBounds _ _ hc (policy_of_outside h1)

theorem shape_storeWord {i : Instr} {s : State} (w : Word) (base data : Reg) (imm : BitVec 4)
    (hm : mayWriteMemory i = true) (hc : outcomeClass i = .nextOrFault) : Shape i s (storeWord w base data imm s) := by
  rcases storeWord_cases w base data imm s with ⟨_, h0, h1, h⟩ | ⟨_, h⟩ | ⟨_, h1, h⟩ <;> rw [h]
  · exact .store _ hm hc (fun hw => wf_setWord hw (by omega) _)
  · exact .misaligned _ _ hc
  · exact .outOfBounds _ _ hc (policy_of_outside (base := base) (imm := imm) (by omega))

/-- Every instruction but ECALL ends its step with an Outcome of the shape its kind allows. -/
theorem exec_shape (i : Instr) (s : State) (h : isEcall i = false) : ∃ o, exec i s = retire o s ∧ Shape i s o := by
  cases i with
  | ecall svc => cases h
  | nop => exact ⟨_, rfl, .next none (by simp) (by decide)⟩
  | jr rd ignored => exact ⟨_, rfl, .jump none _ (by simp) rfl (by simp [copiesRegisterToPc])⟩
  | jalr rd rs2 =>
    exact ⟨_, rfl, .jump _ _ (by rintro _ ⟨⟩; simp [destinations]) rfl (by simp [copiesRegisterToPc])⟩
  | j ignored imm => exact ⟨_, rfl, .jump none _ (by simp) rfl (fun _ => ⟨imm, rfl⟩)⟩
  | jal rd imm =>
    refine ⟨_, rfl, .jump _ _ ?_ rfl (fun _ => ⟨imm, rfl⟩)⟩
    intro p hp
    split at hp
    · cases hp
    · cases hp; simp [destinations, *]
  | beq rs1 rs2 imm | bne rs1 rs2 imm | blt rs1 rs2 imm | bge rs1 rs2 imm | bltu rs1 rs2 imm | bgeu rs1 rs2 imm =>
    exact ⟨_, rfl, shape_branch _ _ _ _ rfl⟩
  | bz rs1 ignored imm | bnz rs1 ignored imm => exact ⟨_, rfl, shape_branch _ _ _ _ rfl⟩
  | sb rs1 rs2 imm => exact ⟨_, rfl, shape_storeByte _ _ _ _ rfl rfl⟩
  | sw rs1 rs2 imm => exact ⟨_, rfl, shape_storeWord _ _ _ _ rfl rfl⟩
  | lb rd rs2 imm | lbu rd rs2 imm => exact ⟨_, rfl, shape_loadByte _ _ _ _ _ (by simp [destinations]) rfl⟩
  | lw rd rs2 imm => exact ⟨_, rfl, shape_loadWord _ _ _ _ (by simp [destinations]) rfl⟩
  | _ => exact ⟨_, rfl, shape_write (by simp [destinations]) (by simp [outcomeClass])⟩

/-- Everything ECALL can do: an unknown number, a service that never returns, or a result applied. -/
theorem execEcall_cases (svc : BitVec 10) (s : State) :
    (serviceAt s.params svc = none ∧
      execEcall svc s = .next (takeFault (.unknownSyscall svc s.pc) s)) ∨
    (∃ k, serviceAt s.params svc = some k ∧ serviceReply k svc s = .neverReturns ∧
      execEcall svc s = .fault .serviceNeverReturns) ∨
    (∃ k r, serviceAt s.params svc = some k ∧ serviceReply k svc s = .returns r ∧
      execEcall svc s = .next (applyResult svc (encode (.ecall svc)) r (afterCall svc s))) := by
  cases hk : serviceAt s.params svc with
  | none => exact .inl ⟨rfl, by simp [execEcall, hk, retire]⟩
  | some k =>
    cases hr : serviceReply k svc s with
    | neverReturns => exact .inr (.inl ⟨k, rfl, hr, by simp [execEcall, hk, hr]⟩)
    | returns r => exact .inr (.inr ⟨k, r, rfl, hr, by simp [execEcall, hk, hr]⟩)

/-- Everything applying a service's result can do: its access fault, its exit, ServiceError, or the advance. -/
theorem applyResult_cases (svc : BitVec 10) (w : Word) (r : ServiceResult) (s : State) :
    (∃ m e, runAccesses s.mem r.accesses = (m, some e) ∧
      applyResult svc w r s = takeFault (e.raised s.pc (some w)) { s with mem := m }) ∨
    (∃ m, runAccesses s.mem r.accesses = (m, none) ∧ r.halt = true ∧ r.success = true ∧
      applyResult svc w r s = { applyReturn r { s with mem := m } with halted := true, stop := .exit svc }) ∨
    (∃ m, runAccesses s.mem r.accesses = (m, none) ∧ r.halt = true ∧ r.success = false ∧
      applyResult svc w r s = takeFault (.serviceError svc r.diag s.pc) s) ∨
    (∃ m, runAccesses s.mem r.accesses = (m, none) ∧ r.halt = false ∧
      applyResult svc w r s = setPC (applyReturn r { s with mem := m }) s.pcNext) := by
  unfold applyResult
  split
  · rename_i m e h; exact .inl ⟨m, e, h, rfl⟩
  · rename_i m h
    cases hh : r.halt
    · exact .inr (.inr (.inr ⟨m, h, rfl, by simp⟩))
    · cases hs : r.success
      · exact .inr (.inr (.inl ⟨m, h, rfl, rfl, by simp⟩))
      · exact .inr (.inl ⟨m, h, rfl, rfl, by simp⟩)

/-- The dispatch of a decoded instruction is its arm of `exec`. -/
@[simp] theorem dispatch_eq_exec (i : Instr) (s : State) : dispatch i s = exec i s := by cases i <;> rfl

theorem engineExecute_eq_exec (i : Instr) (s : State) (h : isEcall i = false) : engineExecute i s = exec i s := by
  cases i with
  | ecall svc => cases h
  | _ => rfl

theorem fetches_iff (s : State) :
    fetches s = true ↔ s.halted = false ∧ atImageEnd s = false ∧ s.pc.toNat % 2 = 0 := by
  simp [fetches, and_assoc]

/-- A step that reaches the fetch of a whole word runs it. -/
theorem step_of_fetches {s : State} (h : fetches s = true) : step s = executeWord (wordAtPc s) s := by
  rw [fetches_iff] at h
  rcases fetch_cases s with ⟨_, hf⟩ | ⟨hodd, _⟩
  · simp [step, h.1, h.2.1, hf]
  · omega

/-- Everything a step can do. -/
theorem step_cases (s : State) :
    (s.halted = true ∧ step s = .fault .halted) ∨
    (s.halted = false ∧ atImageEnd s = true ∧ step s = .next (stopAtImageEnd s)) ∨
    (s.halted = false ∧ atImageEnd s = false ∧ s.pc.toNat % 2 = 1 ∧
      step s = .next (takeFault (.misaligned (s.pc.toNat : Int) s.pc none) s)) ∨
    (∃ why, fetches s = true ∧ decode (wordAtPc s) = .unknown why ∧
      step s = .next (takeFault (.illegalInstruction (wordAtPc s) s.pc) s)) ∨
    (∃ i, fetches s = true ∧ decode (wordAtPc s) = .instr i ∧ step s = exec i s) := by
  cases hh : s.halted
  · cases he : atImageEnd s
    · rcases fetch_cases s with ⟨heven, hf⟩ | ⟨hodd, hf⟩
      · have hfe : fetches s = true := (fetches_iff s).2 ⟨hh, he, heven⟩
        cases hd : decode (wordAtPc s) with
        | unknown why =>
          exact .inr (.inr (.inr (.inl ⟨why, hfe, rfl, by
            simp [step_of_fetches hfe, executeWord, hd, engineUnknown, retire]⟩)))
        | instr i => exact .inr (.inr (.inr (.inr ⟨i, hfe, rfl, by simp [step_of_fetches hfe, executeWord, hd]⟩)))
      · exact .inr (.inr (.inl ⟨rfl, rfl, hodd, by simp [step, hh, he, hf, retire]⟩))
    · exact .inr (.inl ⟨rfl, rfl, by simp [step, hh, he]⟩)
  · exact .inl ⟨rfl, by simp [step, hh]⟩

end Sys2Proof.Machine
end

