-- ==== Sys2Proof/Laws/PerInstr.lean ====
section
/-! SUPPORT. The family OpcodeField: the word of every instruction carries its format's opcode in bits 2:0
(30_encoding.md R81). -/

set_option Elab.async false

namespace Sys2Proof.Laws.OpcodeField

/-- The low three bits of the word are the opcode of the format. -/
def Statement (i : Instr) : Prop := field (encode i) 0 3 = i.format.opcode

theorem nop : Statement (.nop) := by
  simp [Statement, encode, Instr.format, Format.opcode, field]

theorem add (rd rs2 : Reg) : Statement (.add rd rs2) := by
  simp [Statement, encode, Instr.format, Format.opcode]

theorem sub (rd rs2 : Reg) : Statement (.sub rd rs2) := by
  simp [Statement, encode, Instr.format, Format.opcode]

theorem slt (rd rs2 : Reg) : Statement (.slt rd rs2) := by
  simp [Statement, encode, Instr.format, Format.opcode]

theorem sltu (rd rs2 : Reg) : Statement (.sltu rd rs2) := by
  simp [Statement, encode, Instr.format, Format.opcode]

theorem sll (rd rs2 : Reg) : Statement (.sll rd rs2) := by
  simp [Statement, encode, Instr.format, Format.opcode]

theorem srl (rd rs2 : Reg) : Statement (.srl rd rs2) := by
  simp [Statement, encode, Instr.format, Format.opcode]

theorem sra (rd rs2 : Reg) : Statement (.sra rd rs2) := by
  simp [Statement, encode, Instr.format, Format.opcode]

theorem or (rd rs2 : Reg) : Statement (.or rd rs2) := by
  simp [Statement, encode, Instr.format, Format.opcode]

theorem and (rd rs2 : Reg) : Statement (.and rd rs2) := by
  simp [Statement, encode, Instr.format, Format.opcode]

theorem xor (rd rs2 : Reg) : Statement (.xor rd rs2) := by
  simp [Statement, encode, Instr.format, Format.opcode]

theorem mv (rd rs2 : Reg) : Statement (.mv rd rs2) := by
  simp [Statement, encode, Instr.format, Format.opcode]

theorem jr (rd : Reg) (ignored : BitVec 3) : Statement (.jr rd ignored) := by
  simp [Statement, encode, Instr.format, Format.opcode]

theorem jalr (rd rs2 : Reg) : Statement (.jalr rd rs2) := by
  simp [Statement, encode, Instr.format, Format.opcode]

theorem addi (rd : Reg) (imm : BitVec 7) : Statement (.addi rd imm) := by
  simp [Statement, encode, Instr.format, Format.opcode]

theorem slti (rd : Reg) (imm : BitVec 7) : Statement (.slti rd imm) := by
  simp [Statement, encode, Instr.format, Format.opcode]

theorem sltui (rd : Reg) (imm : BitVec 7) : Statement (.sltui rd imm) := by
  simp [Statement, encode, Instr.format, Format.opcode]

theorem slli (rd : Reg) (shamt : BitVec 4) : Statement (.slli rd shamt) := by
  simp [Statement, encode, Instr.format, Format.opcode]

theorem srli (rd : Reg) (shamt : BitVec 4) : Statement (.srli rd shamt) := by
  simp [Statement, encode, Instr.format, Format.opcode]

theorem srai (rd : Reg) (shamt : BitVec 4) : Statement (.srai rd shamt) := by
  simp [Statement, encode, Instr.format, Format.opcode]

theorem ori (rd : Reg) (imm : BitVec 7) : Statement (.ori rd imm) := by
  simp [Statement, encode, Instr.format, Format.opcode]

theorem andi (rd : Reg) (imm : BitVec 7) : Statement (.andi rd imm) := by
  simp [Statement, encode, Instr.format, Format.opcode]

theorem xori (rd : Reg) (imm : BitVec 7) : Statement (.xori rd imm) := by
  simp [Statement, encode, Instr.format, Format.opcode]

theorem li (rd : Reg) (imm : BitVec 7) : Statement (.li rd imm) := by
  simp [Statement, encode, Instr.format, Format.opcode]

theorem beq (rs1 rs2 : Reg) (imm : BitVec 4) : Statement (.beq rs1 rs2 imm) := by
  simp [Statement, encode, Instr.format, Format.opcode]

theorem bne (rs1 rs2 : Reg) (imm : BitVec 4) : Statement (.bne rs1 rs2 imm) := by
  simp [Statement, encode, Instr.format, Format.opcode]

theorem bz (rs1 : Reg) (ignored : BitVec 3) (imm : BitVec 4) : Statement (.bz rs1 ignored imm) := by
  simp [Statement, encode, Instr.format, Format.opcode]

theorem bnz (rs1 : Reg) (ignored : BitVec 3) (imm : BitVec 4) : Statement (.bnz rs1 ignored imm) := by
  simp [Statement, encode, Instr.format, Format.opcode]

theorem blt (rs1 rs2 : Reg) (imm : BitVec 4) : Statement (.blt rs1 rs2 imm) := by
  simp [Statement, encode, Instr.format, Format.opcode]

theorem bge (rs1 rs2 : Reg) (imm : BitVec 4) : Statement (.bge rs1 rs2 imm) := by
  simp [Statement, encode, Instr.format, Format.opcode]

theorem bltu (rs1 rs2 : Reg) (imm : BitVec 4) : Statement (.bltu rs1 rs2 imm) := by
  simp [Statement, encode, Instr.format, Format.opcode]

theorem bgeu (rs1 rs2 : Reg) (imm : BitVec 4) : Statement (.bgeu rs1 rs2 imm) := by
  simp [Statement, encode, Instr.format, Format.opcode]

theorem sb (rs1 rs2 : Reg) (imm : BitVec 4) : Statement (.sb rs1 rs2 imm) := by
  simp [Statement, encode, Instr.format, Format.opcode]

theorem sw (rs1 rs2 : Reg) (imm : BitVec 4) : Statement (.sw rs1 rs2 imm) := by
  simp [Statement, encode, Instr.format, Format.opcode]

theorem lb (rd rs2 : Reg) (imm : BitVec 4) : Statement (.lb rd rs2 imm) := by
  simp [Statement, encode, Instr.format, Format.opcode]

theorem lw (rd rs2 : Reg) (imm : BitVec 4) : Statement (.lw rd rs2 imm) := by
  simp [Statement, encode, Instr.format, Format.opcode]

theorem lbu (rd rs2 : Reg) (imm : BitVec 4) : Statement (.lbu rd rs2 imm) := by
  simp [Statement, encode, Instr.format, Format.opcode]

theorem j (ignored : BitVec 3) (imm : BitVec 9) : Statement (.j ignored imm) := by
  simp [Statement, encode, Instr.format, Format.opcode]

theorem jal (rd : Reg) (imm : BitVec 9) : Statement (.jal rd imm) := by
  simp [Statement, encode, Instr.format, Format.opcode]

theorem lui (rd : Reg) (imm : BitVec 9) : Statement (.lui rd imm) := by
  simp [Statement, encode, Instr.format, Format.opcode]

theorem auipc (rd : Reg) (imm : BitVec 9) : Statement (.auipc rd imm) := by
  simp [Statement, encode, Instr.format, Format.opcode]

theorem ecall (svc : BitVec 10) : Statement (.ecall svc) := by
  simp [Statement, encode, Instr.format, Format.opcode]

end Sys2Proof.Laws.OpcodeField
end

