-- ==== Sys2Proof/Tests/Slice0.lean ====
section
/-! SUPPORT. The model's own tests. Expected results are the spec's: the examples of 41 to 48 and the vectors of
95_test_vectors.md, never the model's answer. "witness" tests show states that meet the hypotheses of an obligation. -/

set_option Elab.async false

namespace Sys2Proof.Tests

open Sys2Proof Sys2Proof.Machine

/-! Helpers -/

/-- The next state of a step, if any. -/
def next? (r : Result) : Option State :=
  match r with
  | .next t => some t
  | _ => none

/-- A state at pc 0x0100 whose s0 holds `a` and s1 holds `b`, the other registers zero. -/
def base (a b : Word) : State :=
  { State.reset with pc := 0x0100#16, x := ((Regs.reset 0).set .x3 a).set .x4 b }

/-- The same with the word `w` to be fetched. -/
def start (w a b : Word) : State := (base a b).withFetchWord 16 w.toNat

/-- A register, the PC and the stop reason after one step. -/
def run (s : State) (r : Reg) : Option (Word × Word × Stop) := (next? (step s)).map fun t => (t.x.get r, t.pc, t.stop)

/-- s0 and the PC after one step without a stop. -/
def runs (w a b v pc : Word) : Bool := run (start w a b) .x3 = some (v, pc, .none)

/-- Two bytes of memory and the PC after one step. -/
def bytes (s : State) (a : Nat) : Option (Byte × Byte × Word) :=
  (next? (step s)).map fun t => (t.mem.byte a, t.mem.byte (a + 1), t.pc)

/-- The start memory of 95_test_vectors.md 2.5, and [FFFF] = 9C. -/
def loadMemory : Memory := [(0x0200, 0x80#8), (0x0201, 0x7F#8), (0x0202, 0x34#8), (0x0203, 0x12#8), (0xFFFF, 0x9C#8)]

/-- A start state over that memory, s1 = `b`. -/
def startLoad (w b : Word) : State := ({ base 0 b with mem := loadMemory } : State).withFetchWord 16 w.toNat

/-- The policy that faults. -/
def faulting (s : State) : State := { s with params := { s.params with eaCarryPolicy := .fault } }

/-- A state whose host gives one reply. -/
def host (s : State) (r : ServiceReply) : State := { s with replies := [r] }

/-- A service's result without accesses. -/
def plain (success : Bool) (ret : Option Word) (halt : Bool) : ServiceResult :=
  { success := success, ret := ret, halt := halt, diag := none, accesses := [] }

/-! WellFormed -/

/-- The one ill-formed instruction: ADD x0, x0 would be the NOP word (41_r_type.md R142). -/
theorem test_wellformed_refuses_add_x0_x0 : (Instr.add .x0 .x0).wellFormed = false := by decide

theorem test_wellformed_accepts_its_neighbours :
    (Instr.add .x0 .x1).wellFormed = true ∧ (Instr.add .x3 .x0).wellFormed = true ∧ Instr.nop.wellFormed = true := by decide

/-! Decoding: every constructor, the word written field by field from 30_encoding.md sections 2 and 4 -/

/-- R: funct4, rs2, rd, funct3, 000. -/
theorem test_decode_r_arithmetic :
    decode 0b0000_000_000_000_000#16 = .instr .nop ∧
    decode 0b0000_100_011_000_000#16 = .instr (.add .x3 .x4) ∧
    decode 0b0001_100_011_000_000#16 = .instr (.sub .x3 .x4) ∧
    decode 0b0010_100_011_001_000#16 = .instr (.slt .x3 .x4) ∧
    decode 0b0011_100_011_010_000#16 = .instr (.sltu .x3 .x4) ∧
    decode 0b0100_100_011_011_000#16 = .instr (.sll .x3 .x4) ∧
    decode 0b0101_100_011_011_000#16 = .instr (.srl .x3 .x4) ∧
    decode 0b0110_100_011_011_000#16 = .instr (.sra .x3 .x4) := by decide

theorem test_decode_r_logic_and_jumps :
    decode 0b0111_100_011_100_000#16 = .instr (.or .x3 .x4) ∧
    decode 0b1000_100_011_101_000#16 = .instr (.and .x3 .x4) ∧
    decode 0b1001_100_011_110_000#16 = .instr (.xor .x3 .x4) ∧
    decode 0b1010_111_000_111_000#16 = .instr (.mv .x0 .x7) ∧
    decode 0b1011_000_100_000_000#16 = .instr (.jr .x4 0#3) ∧
    decode 0b1100_101_001_000_000#16 = .instr (.jalr .x1 .x5) := by decide

/-- I: imm7, rd, funct3, 001; a shift: selector, amount, rd, 011, 001. -/
theorem test_decode_i :
    decode 0b1111111_011_000_001#16 = .instr (.addi .x3 0x7F#7) ∧
    decode 0b1000000_011_001_001#16 = .instr (.slti .x3 0x40#7) ∧
    decode 0b0000101_011_010_001#16 = .instr (.sltui .x3 5#7) ∧
    decode 0b001_1111_011_011_001#16 = .instr (.slli .x3 15#4) ∧
    decode 0b010_0100_011_011_001#16 = .instr (.srli .x3 4#4) ∧
    decode 0b100_0100_011_011_001#16 = .instr (.srai .x3 4#4) ∧
    decode 0b1000000_011_100_001#16 = .instr (.ori .x3 0x40#7) ∧
    decode 0b0111111_011_101_001#16 = .instr (.andi .x3 0x3F#7) ∧
    decode 0b1111111_011_110_001#16 = .instr (.xori .x3 0x7F#7) ∧
    decode 0b0111111_011_111_001#16 = .instr (.li .x3 0x3F#7) := by decide

/-- B: imm[4:1], rs2, rs1, funct3, 010. -/
theorem test_decode_b :
    decode 0b0011_100_011_000_010#16 = .instr (.beq .x3 .x4 3#4) ∧
    decode 0b1000_100_011_001_010#16 = .instr (.bne .x3 .x4 8#4) ∧
    decode 0b0010_101_011_010_010#16 = .instr (.bz .x3 5#3 2#4) ∧
    decode 0b1111_000_011_011_010#16 = .instr (.bnz .x3 0#3 15#4) ∧
    decode 0b0010_100_011_100_010#16 = .instr (.blt .x3 .x4 2#4) ∧
    decode 0b0010_100_011_101_010#16 = .instr (.bge .x3 .x4 2#4) ∧
    decode 0b0010_100_011_110_010#16 = .instr (.bltu .x3 .x4 2#4) ∧
    decode 0b0010_100_011_111_010#16 = .instr (.bgeu .x3 .x4 2#4) := by decide

/-- S: imm, data, base, funct3, 011; L: imm, base, rd, funct3, 100. -/
theorem test_decode_s_l :
    decode 0b1111_100_011_000_011#16 = .instr (.sb .x3 .x4 15#4) ∧
    decode 0b0010_100_011_001_011#16 = .instr (.sw .x3 .x4 2#4) ∧
    decode 0b0001_100_011_000_100#16 = .instr (.lb .x3 .x4 1#4) ∧
    decode 0b1000_100_011_001_100#16 = .instr (.lw .x3 .x4 8#4) ∧
    decode 0b1111_100_011_100_100#16 = .instr (.lbu .x3 .x4 15#4) := by decide

/-- J and U: selector, imm high six, rd, imm low three, 101 or 110; SYS: number, funct3, 111. -/
theorem test_decode_j_u_sys :
    decode 0b0_000000_011_011_101#16 = .instr (.j 3#3 3#9) ∧
    decode 0b1_000100_001_000_101#16 = .instr (.jal .x1 32#9) ∧
    decode 0b0_000100_011_100_110#16 = .instr (.lui .x3 36#9) ∧
    decode 0b1_111111_011_111_110#16 = .instr (.auipc .x3 511#9) ∧
    decode 0b0000001010_000_111#16 = .instr (.ecall 10#10) := by decide

/-- The UNKNOWN words of 95_test_vectors.md section 2. -/
theorem test_decode_unknown :
    decode 0xD000#16 = .unknown .unknownR ∧ decode 0x0008#16 = .unknown .unknownR ∧
    decode 0x0019#16 = .unknown .unknownI ∧ decode 0x6019#16 = .unknown .unknownI ∧
    decode 0x0013#16 = .unknown .unknownS ∧ decode 0x0014#16 = .unknown .unknownL ∧
    decode 0x000F#16 = .unknown .unknownSys ∧ decode 0xFFFF#16 = .unknown .unknownSys := by decide

theorem test_decode_bytes :
    (decodeBytes [0xC0#8, 0x08#8]).1 = .instr (.add .x3 .x4) ∧ (decodeBytes [0xC0#8]).1 = .unknown .truncated := by decide

theorem test_decodeTableWord :
    decodeTableWord 16 0x08C0 = some (.add .x3 .x4) ∧ decodeTableWord 16 0xFFFF = none := by decide

/-! One step of every instruction, from 95_test_vectors.md section 2 -/

theorem test_nop : run ((start 0x0000#16 0 0)) .x0 = some (0x0000#16, 0x0102#16, .none) := by decide

/-- NOP leaves x0 as it is also when it is not zero. -/
theorem test_nop_keeps_x0 :
    (next? (step (({ base 0 0 with x := (Regs.reset 0).set .x0 5#16 } : State).withFetchWord 16 0))).map (·.x.get .x0) =
      some 0x0005#16 := by decide

theorem test_add_wraps : runs 0x08C0#16 0xFFFF#16 0x0001#16 0x0000#16 0x0102#16 = true := by decide
theorem test_add_doubles : runs 0x06C0#16 0x4000#16 0#16 0x8000#16 0x0102#16 = true := by decide
theorem test_sub_borrows : runs 0x18C0#16 0x0000#16 0x0001#16 0xFFFF#16 0x0102#16 = true := by decide
theorem test_slt_signed : runs 0x28C8#16 0x8000#16 0x7FFF#16 0x0001#16 0x0102#16 = true := by decide
theorem test_sltu_unsigned : runs 0x38D0#16 0x8000#16 0x7FFF#16 0x0000#16 0x0102#16 = true := by decide
theorem test_sll_15 : runs 0x48D8#16 0x0001#16 0x000F#16 0x8000#16 0x0102#16 = true := by decide
theorem test_sll_16_is_0 : runs 0x48D8#16 0x0001#16 0x0010#16 0x0001#16 0x0102#16 = true := by decide
theorem test_srl_15 : runs 0x58D8#16 0x8000#16 0x000F#16 0x0001#16 0x0102#16 = true := by decide
theorem test_sra_15 : runs 0x68D8#16 0x8000#16 0x000F#16 0xFFFF#16 0x0102#16 = true := by decide
theorem test_sra_20_is_4 : runs 0x68D8#16 0x8000#16 0x0014#16 0xF800#16 0x0102#16 = true := by decide
theorem test_or : runs 0x78E0#16 0xF0F0#16 0x0FF0#16 0xFFF0#16 0x0102#16 = true := by decide
theorem test_and : runs 0x88E8#16 0xF0F0#16 0x0FF0#16 0x00F0#16 0x0102#16 = true := by decide
theorem test_xor : runs 0x98F0#16 0xF0F0#16 0x0FF0#16 0xFF00#16 0x0102#16 = true := by decide
theorem test_mv : runs 0xA8F8#16 0xAAAA#16 0x1234#16 0x1234#16 0x0102#16 = true := by decide
theorem test_jr_even : run (start 0xB100#16 0 0x0400#16) .x4 = some (0x0400#16, 0x0400#16, .none) := by decide
theorem test_jr_odd : run (start 0xB100#16 0 0x0401#16) .x4 = some (0x0401#16, 0x0401#16, .none) := by decide
/-- `JALR s1, s1`: the target is read before the link is written. -/
theorem test_jalr_same_register : run (start 0xC900#16 0 0x0200#16) .x4 = some (0x0102#16, 0x0200#16, .none) := by decide

theorem test_addi_negative : runs 0xFEC1#16 0x0000#16 0#16 0xFFFF#16 0x0102#16 = true := by decide
theorem test_addi_wraps : runs 0x7EC1#16 0xFFF0#16 0#16 0x002F#16 0x0102#16 = true := by decide
theorem test_slti_negative : runs 0xFEC9#16 0xFFFE#16 0#16 0x0001#16 0x0102#16 = true := by decide
theorem test_slti_equal : runs 0x80C9#16 0xFFC0#16 0#16 0x0000#16 0x0102#16 = true := by decide
theorem test_sltui_extends_by_sign : runs 0xFED1#16 0x8000#16 0#16 0x0001#16 0x0102#16 = true := by decide
theorem test_slli_15 : runs 0x3ED9#16 0x0003#16 0#16 0x8000#16 0x0102#16 = true := by decide
theorem test_srli_15 : runs 0x5ED9#16 0xFFFF#16 0#16 0x0001#16 0x0102#16 = true := by decide
theorem test_srai_15 : runs 0x9ED9#16 0x8000#16 0#16 0xFFFF#16 0x0102#16 = true := by decide
theorem test_srai_positive : runs 0x82D9#16 0x7FFF#16 0#16 0x3FFF#16 0x0102#16 = true := by decide
theorem test_ori : runs 0x80E1#16 0x0001#16 0#16 0xFFC1#16 0x0102#16 = true := by decide
theorem test_andi : runs 0x7EE9#16 0x1235#16 0#16 0x0035#16 0x0102#16 = true := by decide
theorem test_xori : runs 0xFEF1#16 0x00FF#16 0#16 0xFF00#16 0x0102#16 = true := by decide
theorem test_li_negative : runs 0x80F9#16 0x1111#16 0#16 0xFFC0#16 0x0102#16 = true := by decide

theorem test_beq_taken : runs 0x38C2#16 5#16 5#16 5#16 0x0108#16 = true := by decide
theorem test_beq_not_taken : runs 0x38C2#16 5#16 6#16 5#16 0x0102#16 = true := by decide
theorem test_bne_backwards : runs 0x88CA#16 5#16 6#16 5#16 0x00F2#16 = true := by decide
theorem test_bz_taken : runs 0x70D2#16 0#16 0#16 0#16 0x0110#16 = true := by decide
theorem test_bz_ignores_rs2 : runs 0x2AD2#16 0#16 0x1234#16 0#16 0x0106#16 = true := by decide
theorem test_bnz_to_itself : runs 0xF0DA#16 1#16 0#16 1#16 0x0100#16 = true := by decide
theorem test_blt_signed : runs 0x28E2#16 0xFFFF#16 1#16 0xFFFF#16 0x0106#16 = true := by decide
theorem test_bge_signed : runs 0x28EA#16 0x8000#16 0x7FFF#16 0x8000#16 0x0102#16 = true := by decide
theorem test_bge_equal : runs 0x28EA#16 0x8000#16 0x8000#16 0x8000#16 0x0106#16 = true := by decide
theorem test_bltu_unsigned : runs 0x28F2#16 0xFFFF#16 1#16 0xFFFF#16 0x0102#16 = true := by decide
theorem test_bgeu_unsigned : runs 0x28FA#16 0x8000#16 0x7FFF#16 0x8000#16 0x0106#16 = true := by decide

theorem test_sb_negative_offset :
    bytes (start 0xF8C3#16 0x0201#16 0xABCD#16) 0x0200 = some (0xCD#8, 0x00#8, 0x0102#16) := by decide
theorem test_sb_wraps : bytes (start 0xF8C3#16 0x0000#16 0x00AA#16) 0xFFFF = some (0xAA#8, 0x00#8, 0x0102#16) := by decide
theorem test_sw_little_endian :
    bytes (start 0x88CB#16 0x0208#16 0x1234#16) 0x0200 = some (0x34#8, 0x12#8, 0x0102#16) := by decide
theorem test_sw_misaligned :
    run (start 0x18CB#16 0x0200#16 0x1234#16) .x3 =
      some (0x0200#16, 0x0100#16, .fault (.misaligned 0x0201 0x0100#16 (some 0x18CB#16))) := by decide

theorem test_lb_extends_by_sign : run (startLoad 0x08C4#16 0x0200#16) .x3 = some (0xFF80#16, 0x0102#16, .none) := by decide
theorem test_lb_positive : run (startLoad 0x18C4#16 0x0200#16) .x3 = some (0x007F#16, 0x0102#16, .none) := by decide
theorem test_lbu_extends_by_zero : run (startLoad 0x08E4#16 0x0200#16) .x3 = some (0x0080#16, 0x0102#16, .none) := by decide
theorem test_lbu_wraps : run (startLoad 0xF8E4#16 0x0000#16) .x3 = some (0x009C#16, 0x0102#16, .none) := by decide
theorem test_lw_little_endian : run (startLoad 0x28CC#16 0x0200#16) .x3 = some (0x1234#16, 0x0102#16, .none) := by decide
theorem test_lw_overwrites_its_base :
    run (startLoad 0x090C#16 0x0202#16) .x4 = some (0x1234#16, 0x0102#16, .none) := by decide

theorem test_j_self : runs 0x7E3D#16 0 0 0 0x0100#16 = true := by decide
/-- `J 6` with w[8:6] = 3 does not link. -/
theorem test_j_does_not_link : runs 0x00DD#16 0x5555#16 0 0x5555#16 0x0108#16 = true := by decide
theorem test_jal_links : run (start 0x8845#16 0 0) .x1 = some (0x0102#16, 0x0142#16, .none) := by decide
theorem test_jal_x0_does_not_link : run (start 0x801D#16 0 0) .x0 = some (0x0000#16, 0x0108#16, .none) := by decide
theorem test_lui : runs 0x7EFE#16 0x1234#16 0 0xFF80#16 0x0102#16 = true := by decide
theorem test_auipc_own_address : runs 0x80C6#16 0 0 0x0100#16 0x0102#16 = true := by decide
theorem test_auipc_wraps : runs 0xFEFE#16 0 0 0x0080#16 0x0102#16 = true := by decide

theorem test_ecall_exit : run (start 0x0287#16 0 0) .x6 = some (0x0000#16, 0x0100#16, .exit 10#10) := by decide
theorem test_ecall_returns :
    run (host (start 0x0047#16 0 0) (.returns (plain true (some 0x002A#16) false))) .x6 =
      some (0x002A#16, 0x0102#16, .none) := by decide
/-- ServiceError leaves memory as it was, although its service had stored a byte (60_exceptions.md R279). -/
theorem test_ecall_service_error :
    (next? (step (host (start 0x0047#16 0 0)
      (.returns { plain false (some 7) true with accesses := [.store8 0x0200 0xAA#8] })))).map
      (fun t => (t.x.get .x6, t.pc, t.mem.byte 0x0200, t.stop)) =
      some (0x0000#16, 0x0100#16, 0x00#8, .fault (.serviceError 1#10 none 0x0100#16)) := by decide

/-! The step around an instruction -/

theorem test_fetch_odd :
    run ({ start 0x0000#16 0 0 with pc := 0x0101#16 } : State) .x0 =
      some (0x0000#16, 0x0101#16, .fault (.misaligned 0x0101 0x0101#16 none)) := by decide
theorem test_end_of_image :
    run ({ start 0x0000#16 0 0 with pc := 0x0102#16 } : State) .x0 =
      some (0x0000#16, 0x0102#16, .endOfProgram 0x0102#16) := by decide
theorem test_illegal :
    run (start 0xD000#16 0 0) .x0 = some (0x0000#16, 0x0100#16, .fault (.illegalInstruction 0xD000#16 0x0100#16)) := by decide
theorem test_halted_has_no_step : step { State.reset with halted := true, stop := .exit 10#10 } = .fault .halted := rfl
/-- The host's own way of placing a word, from reset. -/
theorem test_withFetchWord_from_reset :
    run (State.reset.withFetchWord 16 0x0B81) .x6 = some (0x0005#16, 0x0002#16, .none) := by decide
theorem test_core_is_the_machine : Sys2Proof.core.step State.reset = step State.reset := rfl

/-! Witnesses: concrete values that meet the hypotheses of the obligations -/

theorem test_witness_DecodeInvertsEncode : ∃ i : Instr, i.wellFormed = true ∧ encode i = 0x08C0#16 :=
  ⟨.add .x3 .x4, by decide⟩
theorem test_witness_EncodeInvertsDecode : decode 0xFEFE#16 = .instr (.auipc .x3 511#9) := by decide
/-- Also LowBitsSelectFormat: a word of every format decodes. -/
theorem test_witness_LowBitsSelectFormat :
    decode 0x08C0#16 = .instr (.add .x3 .x4) ∧ decode 0x0B81#16 = .instr (.addi .x6 5#7) ∧
    decode 0x38C2#16 = .instr (.beq .x3 .x4 3#4) ∧ decode 0x08CB#16 = .instr (.sw .x3 .x4 0#4) ∧
    decode 0x88CC#16 = .instr (.lw .x3 .x4 8#4) ∧ decode 0x8845#16 = .instr (.jal .x1 32#9) ∧
    decode 0x80CE#16 = .instr (.auipc .x3 1#9) ∧ decode 0x0287#16 = .instr (.ecall 10#10) := by decide
theorem test_witness_RFormatOpcodeMap :
    (0x08C0#16 ≠ 0x0000#16 ∧ 0x08C0#16 &&& 0xF03F#16 = 0x0000#16) ∧
    (0xFFC0#16 &&& 0xF03F#16 ≠ 0xC000#16 ∧ 0xCFC0#16 &&& 0xF03F#16 = 0xC000#16 ∧ 0xBFC0#16 &&& 0xF03F#16 = 0xB000#16) ∧
    (0xD000#16 &&& 0x7#16 = 0b000#16 ∧ 0xD000#16 &&& 0xF03F#16 = 0xD000#16) := by decide
theorem test_witness_IFormatOpcodeMap :
    0xFFC1#16 &&& 0x003F#16 = 0x0001#16 ∧ 0x3FD9#16 &&& 0xE03F#16 = 0x2019#16 ∧ 0x5FD9#16 &&& 0xE03F#16 = 0x4019#16 ∧
    0x9FD9#16 &&& 0xE03F#16 = 0x8019#16 ∧ 0xE019#16 &&& 0x003F#16 = 0x0019#16 ∧
    0xE019#16 &&& 0xE000#16 ∉ [0x2000#16, 0x4000#16, 0x8000#16] := by decide
theorem test_witness_BFormatOpcodeMap :
    0xFFC2#16 &&& 0x003F#16 = 0x0002#16 ∧ 0xFFFA#16 &&& 0x003F#16 = 0x003A#16 := by decide
theorem test_witness_StoreLoadOpcodeMap :
    (0x0013#16 &&& 0x7#16 = 0b011#16 ∧ 0x0013#16 &&& 0x003F#16 ∉ [0x0003#16, 0x000B#16]) ∧
    (0x0014#16 &&& 0x7#16 = 0b100#16 ∧ 0x0014#16 &&& 0x003F#16 ∉ [0x0004#16, 0x000C#16, 0x0024#16]) ∧
    0xFFCB#16 &&& 0x003F#16 = 0x000B#16 ∧ 0xFFE4#16 &&& 0x003F#16 = 0x0024#16 := by decide
theorem test_witness_JumpUpperOpcodeMap :
    0x7FFD#16 &&& 0x8007#16 = 0x0005#16 ∧ 0xFFFD#16 &&& 0x8007#16 = 0x8005#16 ∧ 0x7FFE#16 &&& 0x8007#16 = 0x0006#16 ∧
    0xFFFE#16 &&& 0x8007#16 = 0x8006#16 := by decide
theorem test_witness_SysFormatOpcodeMap :
    0xFFC7#16 &&& 0x003F#16 = 0x0007#16 ∧ 0xFFFF#16 &&& 0x7#16 = 0b111#16 ∧ (0xFFFF#16).extractLsb' 3 3 ≠ 0b000#3 := by decide
/-- A word at each end of each format's range. -/
theorem test_witness_ImmediatesOfWords :
    (decodeRecord 0x80C1#16).imm = some 0xFFC0#16 ∧ (decodeRecord 0x7EC1#16).imm = some 63#16 ∧
    (decodeRecord 0x3ED9#16).imm = some 15#16 ∧ (decodeRecord 0x88CA#16).imm = some 0xFFF0#16 ∧
    (decodeRecord 0x70D2#16).imm = some 14#16 ∧ (decodeRecord 0x88CB#16).imm = some 0xFFF8#16 ∧
    (decodeRecord 0x78CC#16).imm = some 7#16 ∧ (decodeRecord 0x4005#16).imm = some 0xFE00#16 ∧
    (decodeRecord 0xBE7D#16).imm = some 510#16 ∧ (decodeRecord 0x7EFE#16).imm = some 0xFF80#16 := by decide
theorem test_witness_ExtensionOfFields :
    (0x8#4).msb = true ∧ sext (0x8#4) = 0xFFF8#16 ∧ (0x7#4).msb = false ∧ sext (0x7#4) = 0x0007#16 ∧
    sext (0x1#1) = 0xFFFF#16 ∧ sext (0x8000#16) = 0x8000#16 ∧ zext (0x80#8) = 0x0080#16 := by decide
theorem test_witness_RelativeJumpsAndLink : Reg.x1 ≠ Reg.x0 := by decide
/-- Both ends of a branch's reach: pc - 14 and pc + 16. -/
theorem test_witness_BranchesFollowConditions :
    0x38C2#16 &&& 0x7#16 = 0b010#16 ∧ (Instr.beq .x3 .x3 8#4).format = .b ∧ (base 0 0).pc.toNat % 2 = 0 ∧
    (next? (exec (.beq .x3 .x3 8#4) (base 0 0))).map (·.pc) = some 0x00F2#16 ∧
    (next? (exec (.beq .x3 .x3 7#4) (base 0 0))).map (·.pc) = some 0x0110#16 := by decide
/-- The lowest and the highest address of a store. -/
theorem test_witness_StoreByteEffect :
    (base 0 0).mem.wf = true ∧ (base 0 0).ea .x3 0#4 = 0 ∧ (base 0 0).ea .x3 15#4 = 65535 := by decide
theorem test_witness_StoreWordEffect :
    (base 0 0).mem.wf = true ∧ (base 0 0).ea .x3 0#4 = 0 ∧ (base 0 0).ea .x3 14#4 = 65534 ∧
    (base 0 0).ea .x3 14#4 % 2 = 0 := by decide
theorem test_witness_LoadEffects :
    (base 0 0).ea .x4 0#4 = 0 ∧ (base 0 0).ea .x4 15#4 = 65535 ∧ (base 0 0).ea .x4 14#4 = 65534 := by decide
theorem test_witness_OddAddressesAreMisaligned :
    (-1 : Int) % 2 = 1 ∧ (base 1 0).ea .x3 0#4 % 2 = 1 ∧ (faulting (base 0 0)).ea .x3 15#4 % 2 = 1 ∧
    (let s : State := { start 0 0 0 with pc := 0x00FF#16 }
     s.halted = false ∧ atImageEnd s = false ∧ s.pc.toNat % 2 = 1) := by decide
/-- The addresses next to both ends of the space: -1 and -2, 65536, and for a halfword 65536. -/
theorem test_witness_OutOfBoundsAccessesFault :
    (faulting (base 0 0)).ea .x3 15#4 = -1 ∧ (faulting (base 0xFFFF#16 0)).ea .x3 1#4 = 65536 ∧
    (faulting (base 0 0)).ea .x3 14#4 = -2 ∧ (faulting (base 0xFFFE#16 0)).ea .x3 2#4 = 65536 := by decide
theorem test_witness_NoOutOfBoundsUnderWrap :
    (base 0 0).params.eaCarryPolicy = .wrap ∧ isEcall (.lw .x3 .x4 1#4) = false ∧
    (next? (exec (.lw .x3 .x4 1#4) (base 0 0))).isSome = true := by decide
/-- Offset 0, and the negative offset -8. -/
theorem test_witness_LoadAfterStoreReturnsValue :
    (base 0 0).mem.wf = true ∧ (base 0 0).ea .x3 0#4 = 0 ∧ (base 0 0).ea .x4 0#4 = (base 0 0).ea .x3 0#4 ∧
    (base 0x0208#16 0x0200#16).ea .x3 8#4 = 0x0200 ∧
    (base 0x0208#16 0x0200#16).ea .x4 0#4 = (base 0x0208#16 0x0200#16).ea .x3 8#4 := by decide
/-- For MemoryPortLoads, MemoryPortByteStore, MemoryPortWordStore and MixedWidthRoundTrips: the last addresses in and the first
out. -/
theorem test_witness_MemoryPorts :
    loadMemory.wf = true ∧ (-1 : Int) < 0 ∧ (-2 : Int) % 2 = 0 ∧ (-1 : Int) % 2 = 1 ∧
    65536 < 65536 + 1 ∧ 65535 + 1 ≤ 65536 ∧ 65535 % 2 = 1 ∧ 65534 % 2 = 0 ∧ 65534 + 2 ≤ 65536 ∧
    65536 % 2 = 0 ∧ 65536 < 65536 + 2 := by decide
theorem test_witness_CanonicalMemoriesAreEqual : loadMemory.wf = true ∧ Memory.wf [(0, 0x00#8)] = false := by decide
theorem test_witness_NoRegisterIsHardwired :
    Reg.x1 ≠ Reg.x0 ∧ (next? (exec .nop (base 0 0))).isSome = true ∧
    (next? (exec (.jal .x0 0#9) (base 0 0))).isSome = true := by decide
theorem test_witness_InvalidRegisterOnlyAtThePort :
    (7 : Nat) < 8 ∧ regOfIndex 7 = some .x7 ∧ regOfIndex 8 = none ∧
    (next? (exec .nop (base 0 0))).isSome = true := by decide
theorem test_witness_OnlyNamedDestinationsChange :
    Reg.x3 ∉ destinations (.add .x4 .x3) ∧ (next? (exec (.add .x4 .x3) (base 1 2))).isSome = true ∧
    destinations (.sw .x3 .x4 0#4) = [] ∧ (next? (exec (.sw .x3 .x4 0#4) (base 0 0))).isSome = true := by decide
theorem test_witness_OnlyNamedDestinationsChange_ecall :
    let r := plain true (some 0x002A#16) false
    let s := host (base 0 0) (.returns r)
    serviceAt s.params 1#10 = some .readString ∧ serviceReply .readString 1#10 s = .returns r ∧
    ∃ t, exec (.ecall 1#10) s = .next t ∧ t.x ≠ s.x := ⟨by decide, rfl, _, rfl, by decide +kernel⟩
theorem test_witness_OnlyStoresAndServicesWriteMemory :
    mayWriteMemory (.lw .x3 .x4 0#4) = false ∧ (next? (exec (.lw .x3 .x4 0#4) (base 0 0))).isSome = true := by decide
theorem test_witness_EveryEngineInstructionAnswersNext : isEcall .nop = false := rfl
/-- One instruction of each class, and both faults of the second class. -/
theorem test_witness_OutcomesFollowTheTable :
    outcomeClass .nop = .next ∧ outcomeClass (.lw .x3 .x4 0#4) = .nextOrFault ∧
    outcomeClass (.beq .x3 .x4 0#4) = .jumpOrNext ∧ outcomeClass (.jr .x3 0#3) = .jump ∧
    outcomeClass (.ecall 10#10) = .dispatchPort ∧
    (next? (exec (.lw .x3 .x4 1#4) (base 0 0))).map (·.halted) = some true ∧
    (next? (exec (.lw .x3 .x4 14#4) (faulting (base 0 0)))).map (·.halted) = some true := by decide
/-- An IllegalInstruction; a fault of a service's access is in the witness of ServiceFaultKeepsEarlierWrites. -/
theorem test_witness_FaultsArePrecise :
    (start 0xD000#16 0 0).stop = .none ∧ ∃ t, step (start 0xD000#16 0 0) = .next t ∧
      t.stop = .fault (.illegalInstruction 0xD000#16 0x0100#16) := ⟨rfl, _, rfl, rfl⟩
theorem test_witness_OnlyRegisterJumpsMakeThePcOdd :
    copiesRegisterToPc (.j 0#3 1#9) = false ∧ (base 0 0).pc.toNat % 2 = 0 ∧
    (next? (exec (.j 0#3 1#9) (base 0 0))).isSome = true := by decide
/-- Also StepKeepsInvariant: a step that answers a next state from a state with the invariant. -/
theorem test_witness_StepKeepsParameters :
    (start 0x08C0#16 1 2).inv = true ∧ (next? (step (start 0x08C0#16 1 2))).isSome = true := by decide
theorem test_witness_StepRunsTheDecodedInstruction :
    fetches (start 0x08C0#16 1 2) = true ∧ decode (wordAtPc (start 0x08C0#16 1 2)) = .instr (.add .x3 .x4) ∧
    fetches (start 0x0287#16 1 2) = true ∧ decode (wordAtPc (start 0x0287#16 1 2)) = .instr (.ecall 10#10) := by decide
theorem test_witness_IllegalWordTakesIllegalInstruction :
    fetches (start 0xFFFF#16 0 0) = true ∧ decode (wordAtPc (start 0xFFFF#16 0 0)) = .unknown .unknownSys := by decide
/-- The image's end at its first address past the image and one byte before it. -/
theorem test_witness_EndOfImageEndsTheRun :
    (let s : State := { start 0 0 0 with pc := 0x0102#16 }
     s.halted = false ∧ s.params.endOfImageStop = true ∧ s.params.imageLen ≤ s.pc.toNat) ∧
    (let s : State := start 0 0 0
     s.halted = false ∧ s.pc.toNat < s.params.imageLen ∧ s.stop = .none ∧ (next? (step s)).isSome = true) ∧
    (let s : State := { base 0 0 with params := { defaultParams with endOfImageStop := false } }
     s.halted = false ∧ s.params.endOfImageStop = false ∧ s.stop = .none ∧ (next? (step s)).isSome = true) := by decide
theorem test_witness_SequencerAppliesOutcomes :
    ((base 0 0).pc + 2#16 : Word) = 0x0102#16 ∧
    (let s := base 0 0
     let w : Writes := { reg := some (.x3, 7#16), mem := some loadMemory }
     let x := s.x.set .x3 7#16
     (w.reg = none → x = s.x) ∧ w.reg = some (.x3, 7#16) ∧ (w.mem = none → loadMemory = s.mem) ∧ w.mem = some loadMemory) ∧
    (({} : Writes).reg = none ∧ ({} : Writes).mem = none) := by decide
theorem test_witness_BootMeetsInvariant : (next? (boot defaultParams [] [0x08C0#16, 0xFFFF#16])).isSome = true := by decide
/-- Both ends of the image's length, and a word of an image. -/
theorem test_witness_BootLoadsTheImage :
    (∀ n w, (List.replicate n (w : Word)).length = n) ∧ 32768 ≤ 32768 ∧ 32768 < 32769 ∧
    [0x08C0#16][0]? = some 0x08C0#16 := ⟨fun _ _ => List.length_replicate, by decide, by decide, rfl⟩
/-- An SW elsewhere, and one into itself; an SB at an even and at an odd address, the last of the space. -/
theorem test_witness_StoresAreSeenByTheNextFetch :
    (let s := start 0x08CB#16 0x0200#16 0xBEEF#16
     s.mem.wf = true ∧ fetches s = true ∧ decode (wordAtPc s) = .instr (.sw .x3 .x4 0#4) ∧ s.ea .x3 0#4 = 0x0200) ∧
    (let s := start 0x08CB#16 0x0100#16 0xBEEF#16
     s.mem.wf = true ∧ fetches s = true ∧ decode (wordAtPc s) = .instr (.sw .x3 .x4 0#4) ∧ s.ea .x3 0#4 = 0x0100) ∧
    (let s := start 0x08C3#16 0x0200#16 0xABCD#16
     s.mem.wf = true ∧ fetches s = true ∧ decode (wordAtPc s) = .instr (.sb .x3 .x4 0#4) ∧ s.ea .x3 0#4 = 0x0200) ∧
    (let s := start 0x08C3#16 0xFFFF#16 0xABCD#16
     s.mem.wf = true ∧ fetches s = true ∧ decode (wordAtPc s) = .instr (.sb .x3 .x4 0#4) ∧ s.ea .x3 0#4 = 65535 ∧
     (({ s with pc := 0xFFFE#16 } : State).pc.toNat : Int) + 1 = 65535) := by
  decide
theorem test_witness_UnknownServiceTakesUnknownSyscall :
    serviceAt (base 0 0).params 0#10 = none ∧ serviceAt (base 0 0).params 1023#10 = none := by
  decide
/-- A print-integer number, a table row behind another, and a number in no row. -/
theorem test_witness_ProgramExitEndsTheRun :
    let p : Params := { defaultParams with svcPrintInt := some 11#10 }
    11#10 ≠ p.svcExit ∧ p.svcPrintInt = some 11#10 ∧
    (2#10 ≠ p.svcExit ∧ p.svcPrintInt ≠ some 2#10 ∧
      p.svcTable = [(1#10, .readString)] ++ (2#10, .readInteger) :: p.svcTable.drop 2) ∧
    (0#10 ≠ p.svcExit ∧ p.svcPrintInt ≠ some 0#10 ∧ p.svcTable.all (fun e => e.1 != 0#10) = true) := by decide
/-- A result of each kind: a value, none, an exit, an error. -/
theorem test_witness_EcallAppliesTheResult (r : ServiceResult)
    (h : r ∈ [plain true (some 7) false, plain false (some 7) false, plain true none true, plain false none true]) :
    serviceAt (host (base 0 0) (.returns r)).params 1#10 = some .readString ∧
    serviceReply .readString 1#10 (host (base 0 0) (.returns r)) = .returns r ∧
    runAccesses (host (base 0 0) (.returns r)).mem r.accesses = ([], none) := by
  refine ⟨rfl, rfl, ?_⟩
  simp only [List.mem_cons, List.not_mem_nil, or_false] at h
  rcases h with rfl | rfl | rfl | rfl <;> rfl
/-- A service that stores a byte, then reads a halfword at an odd address, then would store again. -/
theorem test_witness_ServiceFaultKeepsEarlierWrites :
    let r : ServiceResult :=
      { plain true (some 7) false with accesses := [.store8 0x0200 0xAA#8, .load16 0x0201, .store8 0x0201 0xBB#8] }
    let s := host (base 0 0) (.returns r)
    serviceAt s.params 1#10 = some .readString ∧ serviceReply .readString 1#10 s = .returns r ∧
    r.accesses = [.store8 0x0200 0xAA#8] ++ .load16 0x0201 :: [.store8 0x0201 0xBB#8] ∧
    runAccesses s.mem [.store8 0x0200 0xAA#8] = ([(0x0200, 0xAA#8)], none) ∧
    runAccess [(0x0200, 0xAA#8)] (.load16 0x0201) = .error (.misaligned 0x0201) := ⟨rfl, rfl, rfl, rfl, rfl⟩
/-- An access of each kind that succeeds, and one that fails, also below 0. -/
theorem test_witness_ServicesUseTheMemoryPort :
    load8 loadMemory 0x0200 = .ok 0x80#8 ∧ load16 loadMemory 0x0202 = .ok 0x1234#16 ∧
    load8 loadMemory (-1) = .error (.outOfBounds (-1)) ∧ load16 loadMemory (-1) = .error (.misaligned (-1)) ∧
    runAccesses loadMemory [.load8 0x0200] = (loadMemory, none) ∧
    runAccess loadMemory (.load16 0x0202) = .ok loadMemory ∧
    runAccess loadMemory (.store8 65536 1#8) = .error (.outOfBounds 65536) := ⟨rfl, rfl, rfl, rfl, rfl, rfl, rfl⟩
theorem test_witness_NeverReturningServiceIsStuck :
    let s := host (base 0 0) .neverReturns
    serviceAt s.params 1#10 = some .readString ∧ serviceReply .readString 1#10 s = .neverReturns ∧
    exec (.ecall 1#10) s = .fault .serviceNeverReturns := ⟨rfl, rfl, rfl⟩
theorem test_witness_InternalContractIsNeverRaised :
    (start 0x0287#16 0 0).stop = .none ∧ (next? (step (start 0x0287#16 0 0))).isSome = true := by decide
/-- A run that ends, with a cap and with none, and one the cap stops. -/
theorem test_witness_DriverEndsAtTheHaltFlag :
    (start 0x0287#16 0 0).inv = true ∧ (∃ t, drive 1 (start 0x0287#16 0 0) = .ended t ∧ t.halted = true) ∧
    (∃ t, StopsAt (start 0x0287#16 0 0) (.ended t)) ∧
    (∃ t, drive 0 (start 0x0287#16 0 0) = .capReached t) :=
  ⟨by decide, ⟨_, rfl, rfl⟩, ⟨_, ⟨1, rfl⟩, nofun⟩, ⟨_, rfl⟩⟩

end Sys2Proof.Tests
end

section
/-! PROOFS of the scope family (00_scope.md): the extension of a field, as a number and bit by bit. -/

namespace Sys2Proof.Machine

/-- R10's or-ed all-ones weigh `65536 - 2 ^ n`, the number of words above the field's range. -/
theorem toNat_sext {n : Nat} (v : BitVec n) (h : n ≤ 16) :
    (sext v).toNat = v.toNat + if v.msb = true then 65536 - 2 ^ n else 0 := by
  rw [sext_eq_signExtend v h, BitVec.toNat_signExtend, ← zext, toNat_zext v h]

theorem extractLsb'_sext {n : Nat} (v : BitVec n) (h : n ≤ 16) : (sext v).extractLsb' 0 n = v := by
  rw [sext_eq_signExtend v h]
  apply BitVec.eq_of_getLsbD_eq
  intro i hi
  have hi16 : i < 16 := by omega
  rw [BitVec.getLsbD_extractLsb', Nat.zero_add, BitVec.getLsbD_signExtend]
  simp [hi, hi16]

/-- Settles O12: at every width up to 16 the extensions are the field's number, plus the all-ones above it for a
negative field; width 0 needs no exclusion. -/
theorem extensionOfFields : Obligations.ExtensionOfFields := by
  unfold Obligations.ExtensionOfFields
  intro n v _ hn
  refine ⟨fun hpos => ?_, fun hneg => ?_, extractLsb'_sext v hn, toNat_zext v hn⟩
  · simp [toNat_sext v hn, hpos]
  · simp [toNat_sext v hn, hneg]

end Sys2Proof.Machine
end

section
/-! PROOFS of the encoding family (30_encoding.md): the opcode bits and the format, the SYS words, and the immediate of
each format as the decoder's record gives it. -/

namespace Sys2Proof

/-- A mask that covers a field fixes the field: R97 to R103 give every row of the maps as such a mask. -/
theorem field_eq_of_and_eq {w mask bits : Word} (lo len : Nat) (h : w &&& mask = bits)
    (hmask : field mask lo len = BitVec.allOnes len) : field w lo len = field bits lo len := by
  rw [field] at hmask
  rw [← h, field, field, BitVec.extractLsb'_and, hmask, BitVec.and_allOnes]

/-- The opcode mask of R81 keeps the field `w[2:0]`. -/
theorem and_opcodeMask (w : Word) : w &&& 0x7#16 = (field w 0 3).setWidth 16 := by
  apply BitVec.eq_of_toNat_eq
  calc (w &&& 0x7#16).toNat
      _ = w.toNat % 2 ^ 3 := Nat.and_two_pow_sub_one_eq_mod w.toNat 3
      _ = ((field w 0 3).setWidth 16).toNat := by
        rw [BitVec.toNat_setWidth_of_le (by omega), toNat_field, pow_zero, Nat.div_one]

theorem and_opcodeMask_eq_iff (w : Word) (op : BitVec 3) : w &&& 0x7#16 = op.setWidth 16 ↔ field w 0 3 = op := by
  rw [and_opcodeMask]
  refine ⟨fun h => ?_, fun h => by rw [h]⟩
  have hnat := congrArg BitVec.toNat h
  rw [BitVec.toNat_setWidth_of_le (by omega), BitVec.toNat_setWidth_of_le (by omega)] at hnat
  exact BitVec.eq_of_toNat_eq hnat

/-- The format an opcode selects: the table of R81 read from the left. -/
def Format.ofOpcode (op : BitVec 3) : Format :=
  match op.toNat with
  | 0b000 => .r
  | 0b001 => .i
  | 0b010 => .b
  | 0b011 => .s
  | 0b100 => .l
  | 0b101 => .j
  | 0b110 => .u
  | _ => .sys

theorem ofOpcode_opcode (f : Format) : Format.ofOpcode f.opcode = f := by cases f <;> rfl

theorem opcode_ofOpcode (op : BitVec 3) : (Format.ofOpcode op).opcode = op := by
  revert op
  decide

theorem opcode_inj {f g : Format} : f.opcode = g.opcode ↔ f = g :=
  (Function.LeftInverse.injective ofOpcode_opcode).eq_iff

/-! What each format's table can answer has that format. -/

section
variable {f4 imm4 shamt : BitVec 4} {f3 a b sel3 : BitVec 3} {imm7 : BitVec 7} {sel : BitVec 1} {imm9 : BitVec 9}
  {svc : BitVec 10} {i : Instr}

theorem format_of_decodeR (h : decodeR f4 f3 a b = .instr i) : i.format = .r := by
  unfold decodeR at h
  split at h <;> cases h <;> rfl

/-- A shift selector of R98 answers a shift, and a shift only. -/
theorem shift_of_decodeShift (h : decodeShift sel3 a shamt = .instr i) : i.format = .i ∧ isShiftImmediate i = true := by
  unfold decodeShift at h
  split at h <;> cases h <;> exact ⟨rfl, rfl⟩

/-- funct3 = 011, and no other, gives a shift in the I format (R98). -/
theorem format_of_decodeI (h : decodeI f3 a imm7 sel3 shamt = .instr i) :
    i.format = .i ∧ (isShiftImmediate i = true ↔ f3 = 0b011#3) := by
  unfold decodeI at h
  split at h
  case h_4 hf3 =>
    obtain ⟨hformat, hshift⟩ := shift_of_decodeShift h
    exact ⟨hformat, iff_of_true hshift (BitVec.eq_of_toNat_eq hf3)⟩
  all_goals
    cases h
    refine ⟨rfl, iff_of_false Bool.false_ne_true ?_⟩
    rintro rfl
    contradiction

theorem format_of_decodeB (h : decodeB f3 a b imm4 = .instr i) : i.format = .b := by
  unfold decodeB at h
  split at h <;> cases h <;> rfl

theorem format_of_decodeS (h : decodeS f3 a b imm4 = .instr i) : i.format = .s := by
  unfold decodeS at h
  split at h <;> cases h <;> rfl

theorem format_of_decodeL (h : decodeL f3 a b imm4 = .instr i) : i.format = .l := by
  unfold decodeL at h
  split at h <;> cases h <;> rfl

theorem format_of_decodeJ (h : decodeJ sel a imm9 = .instr i) : i.format = .j := by
  unfold decodeJ at h
  split at h <;> cases h <;> rfl

theorem format_of_decodeU (h : decodeU sel a imm9 = .instr i) : i.format = .u := by
  unfold decodeU at h
  split at h <;> cases h <;> rfl

theorem format_of_decodeSys (h : decodeSys f3 svc = .instr i) : i.format = .sys := by
  unfold decodeSys at h
  split at h
  · cases h
    rfl
  · cases h

end

/-! The opcode of a word that decodes. -/

section
variable {w : Word} {i : Instr}

/-- The opcode field names the format of the format case (R81, R105). -/
theorem opcode_of_decodeFormat (h : decodeFormat w = .instr i) : i.format.opcode = field w 0 3 := by
  obtain ⟨f, hop⟩ : ∃ f : Format, f.opcode = field w 0 3 := ⟨_, opcode_ofOpcode _⟩
  rw [decodeFormat, ← hop] at h
  rw [← hop, opcode_inj]
  cases f with
  | r => exact format_of_decodeR h
  | i => exact (format_of_decodeI h).1
  | b => exact format_of_decodeB h
  | s => exact format_of_decodeS h
  | l => exact format_of_decodeL h
  | j => exact format_of_decodeJ h
  | u => exact format_of_decodeU h
  | sys => exact format_of_decodeSys h

/-- NOP is an R-format instruction and its word has the R opcode, so R104's exception does not disturb R81. -/
theorem opcode_of_decode (h : decode w = .instr i) : i.format.opcode = field w 0 3 := by
  unfold decode at h
  split at h
  case isTrue hw =>
    cases h
    rw [hw]
    rfl
  case isFalse => exact opcode_of_decodeFormat h

theorem format_eq_iff (h : decode w = .instr i) (f : Format) :
    i.format = f ↔ w &&& 0x7#16 = f.opcode.setWidth 16 := by
  rw [and_opcodeMask_eq_iff, ← opcode_of_decode h, opcode_inj]

/-- The NOP word has opcode 000, so every other opcode is decoded by its format's table. -/
theorem decode_of_opcode_ne (h : field w 0 3 ≠ 0b000#3) : decode w = decodeFormat w := by
  rw [decode, if_neg]
  rintro rfl
  exact h rfl

theorem decode_of_opcode_i (h : field w 0 3 = Format.i.opcode) :
    decode w = decodeI (field w 3 3) (field w 6 3) (field w 9 7) (field w 13 3) (field w 9 4) := by
  rw [decode_of_opcode_ne (by rw [h]; decide), decodeFormat, h]
  rfl

theorem decode_of_opcode_sys (h : field w 0 3 = Format.sys.opcode) :
    decode w = decodeSys (field w 3 3) (field w 6 10) := by
  rw [decode_of_opcode_ne (by rw [h]; decide), decodeFormat, h]
  rfl

/-- An I-format word is a shift exactly where its funct3 is 011 (R92, R98). -/
theorem isShiftImmediate_iff (h : decode w = .instr i) (hi : i.format = .i) :
    isShiftImmediate i = true ↔ field w 3 3 = 0b011#3 := by
  have hop : field w 0 3 = Format.i.opcode := by rw [← opcode_of_decode h, hi]
  rw [decode_of_opcode_i hop] at h
  exact (format_of_decodeI h).2

end

theorem decodeSys_zero (svc : BitVec 10) : decodeSys 0b000#3 svc = .instr (.ecall svc) := rfl

theorem decodeSys_of_ne {f3 : BitVec 3} (h : f3 ≠ 0b000#3) (svc : BitVec 10) :
    decodeSys f3 svc = .unknown .unknownSys := by
  unfold decodeSys
  split
  case h_1 hf3 => exact absurd (BitVec.eq_of_toNat_eq hf3) h
  case h_2 => rfl

/-- Settles O4: each row of R81 is `format_eq_iff` at its format. -/
theorem lowBitsSelectFormat : Obligations.LowBitsSelectFormat := by
  unfold Obligations.LowBitsSelectFormat
  intro w i h
  have row := format_eq_iff h
  exact ⟨row .r, row .i, row .b, row .s, row .l, row .j, row .u, row .sys⟩

/-- Settles O10: the masks fix the opcode and funct3, and the SYS table answers by funct3 alone. -/
theorem sysFormatOpcodeMap : Obligations.SysFormatOpcodeMap := by
  unfold Obligations.SysFormatOpcodeMap
  refine ⟨fun w h => ?_, fun w h hf3 => ?_⟩
  · have hop : field w 0 3 = Format.sys.opcode := field_eq_of_and_eq 0 3 h (by decide)
    have hf3 : field w 3 3 = 0b000#3 := field_eq_of_and_eq 3 3 h (by decide)
    rw [decode_of_opcode_sys hop, hf3, decodeSys_zero, field]
  · have hop : field w 0 3 = Format.sys.opcode := field_eq_of_and_eq 0 3 h (by decide)
    exact (decode_of_opcode_sys hop).trans (decodeSys_of_ne hf3 _)

namespace Machine

/-! The immediate of each format as a number, with its range (R91 to R96). -/

theorem immI_value (k : BitVec 7) : (immI k).toInt = k.toInt ∧ -64 ≤ (immI k).toInt ∧ (immI k).toInt ≤ 63 := by
  have hlo := k.le_toInt
  have hhi := k.toInt_lt
  rw [toInt_immI]
  omega

theorem immShamt_value (k : BitVec 4) : (immShamt k).toNat = k.toNat ∧ (immShamt k).toNat ≤ 15 := by
  have hhi := k.isLt
  rw [toNat_immShamt]
  omega

theorem immB_value (k : BitVec 4) : (immB k).toInt = 2 * k.toInt ∧ -16 ≤ (immB k).toInt ∧ (immB k).toInt ≤ 14 := by
  have hlo := k.le_toInt
  have hhi := k.toInt_lt
  rw [toInt_immB]
  omega

theorem immSL_value (k : BitVec 4) : (immSL k).toInt = k.toInt ∧ -8 ≤ (immSL k).toInt ∧ (immSL k).toInt ≤ 7 := by
  have hlo := k.le_toInt
  have hhi := k.toInt_lt
  rw [toInt_immSL]
  omega

theorem immJ_value (k : BitVec 9) : (immJ k).toInt = 2 * k.toInt ∧ -512 ≤ (immJ k).toInt ∧ (immJ k).toInt ≤ 510 := by
  have hlo := k.le_toInt
  have hhi := k.toInt_lt
  rw [toInt_immJ]
  omega

theorem immU_value (hi : BitVec 6) (lo : BitVec 3) : (immU (hi ++ lo)).toNat = 128 * (hi.toNat * 8 + lo.toNat) := by
  rw [toNat_immU, toNat_append_add]
  omega

/-! The immediate in the record of a word that decodes. -/

section
variable {w : Word} {i : Instr}

theorem decodeRecord_of_decode (h : decode w = .instr i) : decodeRecord w = recordOf w i := by
  rw [decodeRecord, h]

theorem imm_of_format_i (h : decode w = .instr i) (hi : i.format = .i) (hshift : isShiftImmediate i = false) :
    (decodeRecord w).imm = some (immI (field w 9 7)) := by
  have hf3 : field w 3 3 ≠ 0b011#3 := by simp [← isShiftImmediate_iff h hi, hshift]
  simp [decodeRecord_of_decode h, recordOf, hi, hf3]

theorem imm_of_shift (h : decode w = .instr i) (hi : i.format = .i) (hshift : isShiftImmediate i = true) :
    (decodeRecord w).imm = some (immShamt (field w 9 4)) := by
  have hf3 : field w 3 3 = 0b011#3 := (isShiftImmediate_iff h hi).1 hshift
  simp [decodeRecord_of_decode h, recordOf, hi, hf3]

theorem imm_of_format_b (h : decode w = .instr i) (hb : i.format = .b) :
    (decodeRecord w).imm = some (immB (field w 12 4)) := by
  simp [decodeRecord_of_decode h, recordOf, hb]

theorem imm_of_format_sl (h : decode w = .instr i) (hsl : i.format = .s ∨ i.format = .l) :
    (decodeRecord w).imm = some (immSL (field w 12 4)) := by
  rcases hsl with hs | hl
  · simp [decodeRecord_of_decode h, recordOf, hs]
  · simp [decodeRecord_of_decode h, recordOf, hl]

theorem imm_of_format_j (h : decode w = .instr i) (hj : i.format = .j) :
    (decodeRecord w).imm = some (immJ (field w 9 6 ++ field w 3 3)) := by
  simp [decodeRecord_of_decode h, recordOf, hj]

theorem imm_of_format_u (h : decode w = .instr i) (hu : i.format = .u) :
    (decodeRecord w).imm = some (immU (field w 9 6 ++ field w 3 3)) := by
  simp [decodeRecord_of_decode h, recordOf, hu]

end

/-- Settles O11: format by format, the field the record takes and the number that field stands for. -/
theorem immediatesOfWords : Obligations.ImmediatesOfWords := by
  unfold Obligations.ImmediatesOfWords
  intro w i h
  exact ⟨fun hi hshift => ⟨_, imm_of_format_i h hi hshift, immI_value _⟩,
    fun hi hshift => ⟨_, imm_of_shift h hi hshift, immShamt_value _⟩,
    fun hb => ⟨_, imm_of_format_b h hb, immB_value _⟩,
    fun hsl => ⟨_, imm_of_format_sl h hsl, immSL_value _⟩,
    fun hj => ⟨_, imm_of_format_j h hj, immJ_value _⟩,
    fun hu => ⟨_, imm_of_format_u h hu, immU_value _ _⟩⟩

end Machine
end Sys2Proof
end

section
/-! PROOFS of the cycle family (40_cycle.md): what a fetched word runs, what the PC sequencer applies, and the stop reasons
a step can leave. -/

namespace Sys2Proof.Machine

/-! Decode and dispatch of a fetched word (R123, R124). -/

section
variable {s : State} {i : Instr} {why : Reject}

@[simp] theorem engineExecute_ecall (svc : BitVec 10) (s : State) :
    engineExecute (.ecall svc) s = .next (takeFault (.internalContract (encode (.ecall svc)) s.pc) s) := rfl

@[simp] theorem engineUnknown_eq (w : Word) (s : State) :
    engineUnknown w s = .next (takeFault (.illegalInstruction w s.pc) s) := rfl

theorem step_of_instr (hf : fetches s = true) (hd : decode (wordAtPc s) = .instr i) : step s = exec i s := by
  rw [step_of_fetches hf, executeWord, hd]
  exact dispatch_eq_exec i s

theorem step_of_unknown (hf : fetches s = true) (hd : decode (wordAtPc s) = .unknown why) :
    step s = engineUnknown (wordAtPc s) s := by
  rw [step_of_fetches hf, executeWord, hd]

end

/-! The stop reasons a step can leave. -/

/-- The stop reasons that `exec i` can leave in the next state of `s`: the old one, a failed access, or what ECALL records. -/
inductive ExecStop (i : Instr) (s : State) : Stop → Prop where
  | kept : ExecStop i s s.stop
  | access (e : MemFault) (w : Word) : ExecStop i s (.fault (e.raised s.pc (some w)))
  | unknownSyscall (svc : BitVec 10) (hi : i = .ecall svc) : ExecStop i s (.fault (.unknownSyscall svc s.pc))
  | exit (svc : BitVec 10) (hi : i = .ecall svc) : ExecStop i s (.exit svc)
  | serviceError (svc : BitVec 10) (diag : Option String) (hi : i = .ecall svc) :
      ExecStop i s (.fault (.serviceError svc diag s.pc))

section
variable {s t : State} {i : Instr} {o : EngineOutcome}

theorem execStop_of_shape (h : Shape i s o) : ExecStop i s (pcSequencer o s).stop := by
  cases h with
  | next | store | branch | jump => exact .kept
  | misaligned a w => exact .access (.misaligned a) w
  | outOfBounds a w => exact .access (.outOfBounds a) w

theorem execStop_of_applyResult (svc : BitVec 10) (w : Word) (r : ServiceResult) (s : State) :
    ExecStop (.ecall svc) s (applyResult svc w r s).stop := by
  rcases applyResult_cases svc w r s with ⟨_, e, _, h⟩ | ⟨_, _, _, _, h⟩ | ⟨_, _, _, _, h⟩ | ⟨_, _, _, h⟩ <;> rw [h]
  · exact .access e w
  · exact .exit svc rfl
  · exact .serviceError svc r.diag rfl
  · rw [setPC_stop, applyReturn_stop]
    exact .kept

/-- What the host's session counts of a call has no part in the stop reasons. -/
theorem execStop_afterCall {svc : BitVec 10} {r : Stop} (h : ExecStop i (afterCall svc s) r) : ExecStop i s r := by
  cases h with
  | kept => rw [afterCall_stop]; exact .kept
  | access e w => rw [afterCall_pc]; exact .access e w
  | unknownSyscall n hi => rw [afterCall_pc]; exact .unknownSyscall n hi
  | exit n hi => exact .exit n hi
  | serviceError n diag hi => rw [afterCall_pc]; exact .serviceError n diag hi

theorem execStop_of_execEcall {svc : BitVec 10} (h : execEcall svc s = .next t) : ExecStop (.ecall svc) s t.stop := by
  rcases execEcall_cases svc s with ⟨_, he⟩ | ⟨_, _, _, he⟩ | ⟨_, r, _, _, he⟩ <;> rw [he] at h <;> cases h
  · exact .unknownSyscall svc rfl
  · exact execStop_afterCall (execStop_of_applyResult svc _ r _)

theorem execStop_of_exec (h : exec i s = .next t) : ExecStop i s t.stop := by
  cases hi : isEcall i with
  | false =>
    obtain ⟨o, ho, hshape⟩ := exec_shape i s hi
    rw [ho, retire_next_iff] at h
    exact h ▸ execStop_of_shape hshape
  | true =>
    cases i with
    | ecall svc => exact execStop_of_execEcall h
    | _ => cases hi

/-- The stop reasons a step can leave: the image's end, a fetch at an odd PC, an UNKNOWN word, or what the decoded
instruction leaves. -/
theorem step_stop_cases (h : step s = .next t) :
    (atImageEnd s = true ∧ t.stop = .endOfProgram s.pc) ∨
    t.stop = .fault (.misaligned s.pc.toNat s.pc none) ∨
    t.stop = .fault (.illegalInstruction (wordAtPc s) s.pc) ∨
    (∃ i, decode (wordAtPc s) = .instr i ∧ ExecStop i s t.stop) := by
  rcases step_cases s with ⟨_, hs⟩ | ⟨_, hend, hs⟩ | ⟨_, _, _, hs⟩ | ⟨_, _, _, hs⟩ | ⟨i, _, hd, hs⟩ <;> rw [hs] at h
  · cases h
  · cases h; exact .inl ⟨hend, rfl⟩
  · cases h; exact .inr (.inl rfl)
  · cases h; exact .inr (.inr (.inl rfl))
  · exact .inr (.inr (.inr ⟨i, hd, execStop_of_exec h⟩))

theorem raised_ne_internalContract (e : MemFault) (pc : Word) (word : Option Word) (w pc' : Word) :
    e.raised pc word ≠ .internalContract w pc' := by
  cases e <;> simp [MemFault.raised]

/-- An instruction leaves InternalContract only where it already stood. -/
theorem stop_of_execStop_internalContract {w pc : Word} (h : ExecStop i s (.fault (.internalContract w pc))) :
    s.stop = .fault (.internalContract w pc) := by
  generalize hr : Stop.fault (.internalContract w pc) = r at h
  cases h with
  | kept => rfl
  | access e v => exact absurd (Stop.fault.inj hr).symm (raised_ne_internalContract e _ _ w pc)
  | unknownSyscall | exit | serviceError => cases hr

end

/-- Settles O58: no reason of `step_stop_cases` is InternalContract, so it could only have stood before the step. -/
theorem internalContractIsNeverRaised : Obligations.InternalContractIsNeverRaised := by
  unfold Obligations.InternalContractIsNeverRaised
  refine ⟨fun s svc => engineExecute_ecall svc s, fun s t hstop hstep w pc ht => ?_⟩
  rcases step_stop_cases hstep with ⟨_, h⟩ | h | h | ⟨i, _, h⟩
  · cases ht.symm.trans h
  · cases ht.symm.trans h
  · cases ht.symm.trans h
  · rw [ht] at h
    cases hstop.symm.trans (stop_of_execStop_internalContract h)

/-- Settles O42: the step runs the word at the PC, and the engine differs from `exec` at ECALL alone. -/
theorem stepRunsTheDecodedInstruction : Obligations.StepRunsTheDecodedInstruction := by
  unfold Obligations.StepRunsTheDecodedInstruction
  intro s hf
  refine ⟨fun i => step_of_instr hf, fun svc => step_of_instr hf, fun i hd hi => ?_, fun why => step_of_unknown hf⟩
  rw [engineExecute_eq_exec i s hi]
  exact step_of_instr hf hd

/-- Settles O43: the engine's answer to UNKNOWN is fault entry with the word and the PC. -/
theorem illegalWordTakesIllegalInstruction : Obligations.IllegalWordTakesIllegalInstruction := by
  unfold Obligations.IllegalWordTakesIllegalInstruction
  intro s why hf hd
  exact (step_of_unknown hf hd).trans (engineUnknown_eq (wordAtPc s) s)

/-! The writes the PC sequencer applies (R126). -/

section
variable {w : Writes} {s : State}

theorem applyWrites_x_of_none (h : w.reg = none) : (applyWrites w s).x = s.x := by
  simp [applyWrites, h]

theorem applyWrites_x_of_some {r : Reg} {v : Word} (h : w.reg = some (r, v)) : (applyWrites w s).x = s.x.set r v := by
  simp [applyWrites, h]

/-- The writes change the registers and the memory only. -/
theorem applyWrites_eq {x : Regs} {m : Memory} (hx : (applyWrites w s).x = x) (hm : (applyWrites w s).mem = m) :
    applyWrites w s = { s with x := x, mem := m } := by
  subst hx hm
  rfl

end

/-- Settles O46: the premises on `x` and `m` make them the registers and the memory after the writes. -/
theorem sequencerAppliesOutcomes : Obligations.SequencerAppliesOutcomes := by
  unfold Obligations.SequencerAppliesOutcomes
  intro s w target f
  refine ⟨fun x m hx0 hx1 hm0 hm1 => ?_, pcSequencer_fault f s, ?_⟩
  · have hx : (applyWrites w s).x = x := by
      cases hr : w.reg with
      | none => rw [applyWrites_x_of_none hr, hx0 hr]
      | some p => rw [applyWrites_x_of_some hr, hx1 p.1 p.2 hr]
    have hm : (applyWrites w s).mem = m := by
      cases hn : w.mem with
      | none => rw [applyWrites_mem, hn, hm0 hn, Option.getD_none]
      | some n => rw [applyWrites_mem, hn, hm1 n hn, Option.getD_some]
    rw [pcSequencer_next, pcSequencer_jump, applyWrites_eq hx hm]
    exact ⟨rfl, rfl⟩
  · rintro rfl
    rfl

end Sys2Proof.Machine
end

section
/-! PROOFS of the B-format family (43_b_type.md): the condition and the destination of every branch, the fields of a B
word, and how far a branch reaches. -/

namespace Sys2Proof

/-! The words of the B format. -/

theorem decode_of_opcode_b {w : Word} (h : field w 0 3 = Format.b.opcode) :
    decode w = decodeB (field w 3 3) (field w 6 3) (field w 9 3) (field w 12 4) := by
  rw [decode_of_opcode_ne (by rw [h]; decide), decodeFormat, h]
  rfl

/-- R99 uses all eight values of funct3, so its table has no UNKNOWN. -/
theorem exists_instr_of_decodeB (f3 a b : BitVec 3) (imm4 : BitVec 4) : ∃ i, decodeB f3 a b imm4 = .instr i := by
  unfold decodeB
  split <;> exact ⟨_, rfl⟩

theorem exists_decode_of_opcode_b {w : Word} (h : field w 0 3 = Format.b.opcode) :
    ∃ i, decode w = .instr i ∧ i.format = .b := by
  rw [decode_of_opcode_b h]
  obtain ⟨i, hi⟩ := exists_instr_of_decodeB (field w 3 3) (field w 6 3) (field w 9 3) (field w 12 4)
  exact ⟨i, hi, format_of_decodeB hi⟩

namespace Machine

section
variable {w : Word} {i : Instr}

theorem rs1_of_format_b (h : decode w = .instr i) (hb : i.format = .b) : (decodeRecord w).rs1 = some (regA w) := by
  simp [decodeRecord_of_decode h, recordOf, hb, regA, field]

theorem rs2_of_format_b (h : decode w = .instr i) (hb : i.format = .b) : (decodeRecord w).rs2 = some (regB w) := by
  simp [decodeRecord_of_decode h, recordOf, hb, regB, field]

end

theorem immB_eq_ofInt (k : BitVec 4) : immB k = BitVec.ofInt 16 (2 * k.toInt) := by
  rw [← toInt_immB, BitVec.ofInt_toInt]

/-! The branch resolver (R191): the condition of each operation as a number's comparison. -/

section
variable (a b : Word)

theorem branchCond_eq : branchCond .eq a b = decide (a = b) := rfl

theorem branchCond_ne : branchCond .ne a b = decide (a ≠ b) := by
  rw [decide_not]
  rfl

theorem branchCond_z : branchCond .z a b = decide (a.toNat = 0) := by
  rw [branchCond, beq_eq_decide, decide_eq_decide]
  exact BitVec.toNat_inj.symm

theorem branchCond_nz : branchCond .nz a b = decide (a.toNat ≠ 0) := by
  rw [decide_not, ← branchCond_z a b]
  rfl

theorem branchCond_lt : branchCond .lt a b = decide (a.toInt < b.toInt) := ltS_eq a b

theorem branchCond_ge : branchCond .ge a b = decide (a.toInt ≥ b.toInt) := geS_eq a b

theorem branchCond_ltu : branchCond .ltu a b = decide (a.toNat < b.toNat) := rfl

theorem branchCond_geu : branchCond .geu a b = decide (a.toNat ≥ b.toNat) := rfl

end

/-! The destination of a branch (R190). -/

/-- The PC a branch leaves, given whether its condition holds (R190); `retire_branch` ties it to the model. -/
def branchDest (s : State) (imm : BitVec 4) (taken : Bool) : Word :=
  if taken then BitVec.ofInt 16 ((s.pc.toNat : Int) + 2 + 2 * imm.toInt) else s.pc + 2#16

theorem pc_add_eq_ofInt (s : State) (k : Int) :
    s.pc + BitVec.ofInt 16 k = BitVec.ofInt 16 ((s.pc.toNat : Int) + k) := by
  rw [BitVec.ofInt_add, BitVec.ofInt_natCast, BitVec.ofNat_toNat, BitVec.setWidth_eq]

theorem pcNext_add_immB (s : State) (imm : BitVec 4) : s.pcNext + immB imm = branchDest s imm true := by
  have htwo : (2#16 : Word) = BitVec.ofInt 16 2 := rfl
  rw [State.pcNext, immB_eq_ofInt, BitVec.add_assoc, htwo, ← BitVec.ofInt_add, pc_add_eq_ofInt, ← Int.add_assoc]
  rfl

/-- Every branch changes the PC alone, to the destination its condition chooses. -/
theorem retire_branch {op : BranchOp} {a b : Word} {c : Bool} (h : branchCond op a b = c) (imm : BitVec 4) (s : State) :
    retire (branch op a b imm s) s = .next { s with pc := branchDest s imm c } := by
  cases c with
  | true => rw [branch, if_pos h, pcNext_add_immB]; rfl
  | false => rw [branch, if_neg (Bool.eq_false_iff.1 h)]; rfl

theorem exec_of_format_b {i : Instr} (h : i.format = .b) (s : State) :
    ∃ imm taken, exec i s = .next { s with pc := branchDest s imm taken } := by
  cases i with
  | beq _ _ imm | bne _ _ imm | bz _ _ imm | bnz _ _ imm | blt _ _ imm | bge _ _ imm | bltu _ _ imm | bgeu _ _ imm =>
    exact ⟨imm, _, retire_branch rfl imm s⟩
  | _ => cases h

/-- A destination lies an even distance of -14 to 16 from the branch: `pc_next` plus the range of R93. -/
theorem branchDest_reach (s : State) (imm : BitVec 4) (taken : Bool) :
    ∃ k : Int, -14 ≤ k ∧ k ≤ 16 ∧ k % 2 = 0 ∧ branchDest s imm taken = BitVec.ofInt 16 ((s.pc.toNat : Int) + k) := by
  cases taken with
  | true =>
    have hlo := imm.le_toInt
    have hhi := imm.toInt_lt
    refine ⟨2 + 2 * imm.toInt, by omega, by omega, by omega, ?_⟩
    rw [← Int.add_assoc]
    rfl
  | false => exact ⟨2, by decide, by decide, by decide, pc_add_eq_ofInt s 2⟩

/-- The wrap modulo 2^16 keeps evenness. -/
theorem toNat_ofInt_even {z : Int} (h : z % 2 = 0) : (BitVec.ofInt 16 z).toNat % 2 = 0 := by
  rw [BitVec.toNat_ofInt]
  omega

/-- Settles O19: `retire_branch` at the condition of each operation, the fields of a B word, and `branchDest_reach`. -/
theorem branchesFollowConditions : Obligations.BranchesFollowConditions := by
  unfold Obligations.BranchesFollowConditions
  refine ⟨fun s rs1 rs2 ignored imm => ?_, fun w hw => ?_, fun i s t hb ht => ?_⟩
  · exact ⟨retire_branch (branchCond_eq _ _) imm s, retire_branch (branchCond_ne _ _) imm s,
      retire_branch (branchCond_z _ _) imm s, retire_branch (branchCond_nz _ _) imm s,
      retire_branch (branchCond_lt _ _) imm s, retire_branch (branchCond_ge _ _) imm s,
      retire_branch (branchCond_ltu _ _) imm s, retire_branch (branchCond_geu _ _) imm s⟩
  · have hop : field w 0 3 = Format.b.opcode := (and_opcodeMask_eq_iff w Format.b.opcode).1 hw
    obtain ⟨i, hd, hb⟩ := exists_decode_of_opcode_b hop
    refine ⟨rs1_of_format_b hd hb, rs2_of_format_b hd hb, ?_⟩
    rw [imm_of_format_b hd hb, immB_eq_ofInt, field]
  · obtain ⟨imm, taken, he⟩ := exec_of_format_b hb s
    obtain ⟨k, hlo, hhi, heven, hdest⟩ := branchDest_reach s imm taken
    cases he.symm.trans ht
    refine ⟨fun hpc => ?_, k, hlo, hhi, hdest⟩
    show (branchDest s imm taken).toNat % 2 = 0
    rw [hdest]
    exact toNat_ofInt_even (by omega)

end Machine
end Sys2Proof
end

section
/-! PROOFS of the L-format family (45_l_type.md): the whole effect of SW and LW at an even address in the space, and the word
an LW finds where an SW stored it. -/

namespace Sys2Proof.Machine

/-- Reading back a stored halfword, low byte first (20_memory.md R61). -/
theorem wordOfBytes_byte_setWord {m : Memory} (h : m.wf = true) {a : Nat} (ha : a + 1 < 65536) (v : Word) :
    wordOfBytes ((m.setWord a v).byte a) ((m.setWord a v).byte (a + 1)) = v := by
  have hlow : (m.setWord a v).byte a = lowByte v := by
    rw [byte_setWord h ha, if_neg (Nat.succ_ne_self a).symm, if_pos rfl]
  have hhigh : (m.setWord a v).byte (a + 1) = highByte v := by
    rw [byte_setWord h ha, if_pos rfl]
  rw [hlow, hhigh, wordOfBytes_bytes]

section
variable {s : State} {base : Reg} {imm : BitVec 4}
  (heven : s.ea base imm % 2 = 0) (hlo : 0 ≤ s.ea base imm) (hhi : s.ea base imm ≤ 65534)
include heven hlo hhi

theorem exec_sw_of_even (data : Reg) :
    exec (.sw base data imm) s =
      .next { s with pc := s.pcNext, mem := s.mem.setWord (s.ea base imm).toNat (s.x.get data) } := by
  show retire (storeWord (encode (.sw base data imm)) base data imm s) s = _
  obtain ⟨-, -, -, hok⟩ | ⟨hodd, -⟩ | ⟨-, hout, -⟩ := storeWord_cases (encode (.sw base data imm)) base data imm s
  · rw [hok]
    rfl
  · omega
  · omega

theorem exec_lw_of_even (rd : Reg) :
    exec (.lw rd base imm) s =
      .next { s with
        pc := s.pcNext
        x := s.x.set rd
          (wordOfBytes (s.mem.byte (s.ea base imm).toNat) (s.mem.byte ((s.ea base imm).toNat + 1))) } := by
  show retire (loadWord (encode (.lw rd base imm)) rd base imm s) s = _
  obtain ⟨-, -, -, hok⟩ | ⟨hodd, -⟩ | ⟨-, hout, -⟩ := loadWord_cases (encode (.lw rd base imm)) rd base imm s
  · rw [hok]
    rfl
  · omega
  · omega

end

/-- An effective address reads the parameters and the registers only (20_memory.md R66). -/
@[simp] theorem ea_with_pc_mem (s : State) (pc : Word) (m : Memory) (base : Reg) (imm : BitVec 4) :
    State.ea { s with pc := pc, mem := m } base imm = s.ea base imm := rfl

/-- Settles O27: SW writes no register, so LW computes the address it would have computed before the store, and finds the
stored word there. -/
theorem loadAfterStoreReturnsValue : Obligations.LoadAfterStoreReturnsValue := by
  unfold Obligations.LoadAfterStoreReturnsValue
  intro s rs1 rs2 rd base imm k hwf hlo hhi heven hsame
  have hea := (ea_with_pc_mem s s.pcNext (s.mem.setWord (s.ea rs1 imm).toNat (s.x.get rs2)) base k).trans hsame
  refine ⟨_, _, exec_sw_of_even heven hlo hhi rs2, exec_lw_of_even ?_ ?_ ?_ rd, ?_, rfl⟩
  · rwa [hea]
  · rwa [hea]
  · rwa [hea]
  · rw [get_set_self, hea, wordOfBytes_byte_setWord hwf (by omega)]

end Sys2Proof.Machine
end

section
/-! PROOFS of the ECALL family (48_sys.md): an unlisted service number. -/

namespace Sys2Proof.Machine

/-- ECALL goes to the dispatch port, not to the engine (40_cycle.md R124). -/
@[simp] theorem exec_ecall (svc : BitVec 10) (s : State) : exec (.ecall svc) s = execEcall svc s := rfl

/-- Of ECALL's three outcomes, the two that ask the host need a row of `svc_table`. -/
theorem execEcall_of_unknown {svc : BitVec 10} {s : State} (h : serviceAt s.params svc = none) :
    execEcall svc s = .next (takeFault (.unknownSyscall svc s.pc) s) := by
  rcases execEcall_cases svc s with ⟨_, hfault⟩ | ⟨k, hrow, _⟩ | ⟨k, _, hrow, _⟩
  · exact hfault
  · cases h.symm.trans hrow
  · cases h.symm.trans hrow

/-- Settles O53: fault entry writes the halt flag and the stop reason only. -/
theorem unknownServiceTakesUnknownSyscall : Obligations.UnknownServiceTakesUnknownSyscall := by
  unfold Obligations.UnknownServiceTakesUnknownSyscall
  intro s svc h
  rw [TakesFault, exec_ecall, execEcall_of_unknown h, takeFault]

end Sys2Proof.Machine
end

section
/-! PROOFS of the exceptions family (60_exceptions.md): the RegisterFile port inside and outside 0 .. 7, the stop reasons
InvalidRegister is not among, and the halted CORE. -/

namespace Sys2Proof.Machine

/-! The RegisterFile port (10_state.md R23): it answers exactly the indices the register numbers give. -/

@[simp] theorem regOfIndex_toBits (r : Reg) : regOfIndex r.toBits.toNat = some r := by cases r <;> rfl

theorem regOfIndex_of_lt {idx : Nat} (h : 7 < idx) : regOfIndex idx = none := by
  obtain ⟨n, rfl⟩ := Nat.exists_eq_add_of_le' h
  rfl

section
variable {s : State} {idx : Nat}

theorem regGet_of_some {r : Reg} (h : regOfIndex idx = some r) : regGet s idx = .ok (s.x.get r) := by
  rw [regGet, h]

theorem regSet_of_some {r : Reg} (h : regOfIndex idx = some r) (v : Word) :
    regSet s idx v = .ok { s with x := s.x.set r v } := by
  rw [regSet, h]

theorem regGet_of_none (h : regOfIndex idx = none) : regGet s idx = .error (.invalidRegister idx s.pc) := by
  rw [regGet, h]

theorem regSet_of_none (h : regOfIndex idx = none) (v : Word) :
    regSet s idx v = .error (.invalidRegister idx s.pc) := by
  rw [regSet, h]

end

/-- A failed memory access is OutOfBounds or Misaligned (20_memory.md R56). -/
theorem raised_ne_invalidRegister (e : MemFault) (pc : Word) (word : Option Word) (idx : Nat) (pc' : Word) :
    e.raised pc word ≠ .invalidRegister idx pc' := by
  cases e <;> exact nofun

/-- Of the reasons an instruction can leave, only the old one can be InvalidRegister. -/
theorem eq_stop_or_ne_invalidRegister_of_execStop {i : Instr} {s : State} {r : Stop} (h : ExecStop i s r) :
    r = s.stop ∨ ∀ (idx : Nat) (pc : Word), r ≠ .fault (.invalidRegister idx pc) := by
  cases h with
  | kept => exact .inl rfl
  | access e w => exact .inr fun idx pc h => raised_ne_invalidRegister e s.pc (some w) idx pc (Stop.fault.inj h)
  | unknownSyscall | exit | serviceError => exact .inr nofun

/-- Settles O34: the port fails where `regOfIndex` names no register, and `ExecStop` has no reason InvalidRegister. -/
theorem invalidRegisterOnlyAtThePort : Obligations.InvalidRegisterOnlyAtThePort := by
  unfold Obligations.InvalidRegisterOnlyAtThePort
  refine ⟨fun s r v => ?_, fun s idx v hidx => ?_, fun i s t h => ?_⟩
  · exact ⟨regGet_of_some (regOfIndex_toBits r), regSet_of_some (regOfIndex_toBits r) v⟩
  · exact ⟨regGet_of_none (regOfIndex_of_lt hidx), regSet_of_none (regOfIndex_of_lt hidx) v⟩
  · exact eq_stop_or_ne_invalidRegister_of_execStop (execStop_of_exec h)

/-- The halt flag is asked before anything else (40_cycle.md R121). -/
theorem step_of_halted {s : State} (h : s.halted = true) : step s = .fault .halted := by
  rw [step, if_pos h]

/-- Settles O44: `step` asks the halt flag alone, so no stop reason lets a halted CORE go on. -/
theorem haltedCoreHasNoStep : Obligations.HaltedCoreHasNoStep := by
  unfold Obligations.HaltedCoreHasNoStep
  exact ⟨fun _ h => step_of_halted h, resetWith_halted⟩

end Sys2Proof.Machine
end

section
/-! PROOFS of the reset and hazards family (70_reset_and_hazards.md): the next fetch sees what a store wrote (R309). -/

namespace Sys2Proof.Machine

theorem wordOfBytes_eq_ofNat (lo hi : Byte) : wordOfBytes lo hi = BitVec.ofNat 16 (lo.toNat + 256 * hi.toNat) := by
  rw [← toNat_wordOfBytes, BitVec.ofNat_toNat, BitVec.setWidth_eq]

/-! The halfword a byte store leaves: the stored byte in its own place, the other byte as it was. -/

section
variable {m : Memory} (h : m.wf = true) (a : Nat) (v : Byte)
include h

theorem wordOfBytes_setByte_low :
    wordOfBytes ((m.setByte a v).byte a) ((m.setByte a v).byte (a + 1)) = wordOfBytes v (m.byte (a + 1)) := by
  rw [byte_setByte h, byte_setByte h, if_pos rfl, if_neg (Nat.succ_ne_self a)]

theorem wordOfBytes_setByte_high :
    wordOfBytes ((m.setByte (a + 1) v).byte a) ((m.setByte (a + 1) v).byte (a + 1)) = wordOfBytes (m.byte a) v := by
  rw [byte_setByte h, byte_setByte h, if_neg (Nat.succ_ne_self a).symm, if_pos rfl]

end

/-- SB completes at every address in the space (44_s_type.md R211). -/
theorem exec_sb_of_bounds {s : State} {base : Reg} {imm : BitVec 4} (hlo : 0 ≤ s.ea base imm)
    (hhi : s.ea base imm ≤ 65535) (data : Reg) :
    exec (.sb base data imm) s =
      .next { s with pc := s.pcNext, mem := s.mem.setByte (s.ea base imm).toNat (lowByte (s.x.get data)) } := by
  show retire (storeByte (encode (.sb base data imm)) base data imm s) s = _
  obtain ⟨-, -, hok⟩ | ⟨hout, -⟩ := storeByte_cases (encode (.sb base data imm)) base data imm s
  · rw [hok]
    rfl
  · omega

/-- The fetch takes the PC and the memory from the state, and nothing else (40_cycle.md R122). -/
theorem fetch_of_even {u : State} {m : Memory} {a : Nat} (hmem : u.mem = m) (hpc : u.pc.toNat = a) (heven : a % 2 = 0) :
    fetch u = .ok (wordOfBytes (m.byte a) (m.byte (a + 1))) := by
  subst hmem hpc
  obtain ⟨-, hok⟩ | ⟨hodd, -⟩ := fetch_cases u
  · exact hok
  · omega

/-- Settles O52: the step runs the store it fetched, whatever bytes the store writes, and a fetch reads the memory as it
then is. A byte at an odd address is the high one of the halfword below it. -/
theorem storesAreSeenByTheNextFetch : Obligations.StoresAreSeenByTheNextFetch := by
  unfold Obligations.StoresAreSeenByTheNextFetch
  intro s rs1 rs2 imm hwf hf hlo
  refine ⟨fun hd hhi heven => ?_, fun hd hhi => ?_⟩
  · have hstep := (step_of_instr hf hd).trans (exec_sw_of_even heven hlo hhi rs2)
    refine ⟨_, hstep, rfl, rfl, fun u hmem hpc => ?_⟩
    have hpc' : u.pc.toNat = (s.ea rs1 imm).toNat := by omega
    rw [fetch_of_even hmem hpc' (by omega), wordOfBytes_byte_setWord hwf (by omega)]
  · have hstep := (step_of_instr hf hd).trans (exec_sb_of_bounds hlo hhi rs2)
    refine ⟨_, hstep, rfl, rfl, fun u hmem hpc heven => ?_, fun u hmem hpc hodd => ?_⟩
    · have hpc' : u.pc.toNat = (s.ea rs1 imm).toNat := by omega
      rw [fetch_of_even hmem hpc' (by omega), wordOfBytes_setByte_low hwf, wordOfBytes_eq_ofNat, toNat_lowByte]
    · have hpc' : (s.ea rs1 imm).toNat = u.pc.toNat + 1 := by omega
      rw [hpc'] at hmem
      rw [fetch_of_even hmem rfl (by omega), wordOfBytes_setByte_high hwf, wordOfBytes_eq_ofNat, toNat_lowByte, hpc',
        Nat.add_sub_cancel]

end Sys2Proof.Machine
end

section
/-! PROOFS of the round trip and the opcode maps (30_encoding.md sections 2, 4 and 5): each format's table is read once at the
word of its fields, and once backwards; the maps are those readings under a mask. -/

namespace Sys2Proof

/-! The format case of R105 by opcode, and the table of each format at the word its encoder gives. -/

section
variable {w : Word}

theorem decode_of_opcode_r (hne : w ≠ 0x0000#16) (h : field w 0 3 = Format.r.opcode) :
    decode w = decodeR (field w 12 4) (field w 3 3) (field w 6 3) (field w 9 3) := by
  rw [decode, if_neg hne, decodeFormat, h]
  rfl

theorem decode_of_opcode_s (h : field w 0 3 = Format.s.opcode) :
    decode w = decodeS (field w 3 3) (field w 6 3) (field w 9 3) (field w 12 4) := by
  rw [decode_of_opcode_ne (by rw [h]; decide), decodeFormat, h]
  rfl

theorem decode_of_opcode_l (h : field w 0 3 = Format.l.opcode) :
    decode w = decodeL (field w 3 3) (field w 6 3) (field w 9 3) (field w 12 4) := by
  rw [decode_of_opcode_ne (by rw [h]; decide), decodeFormat, h]
  rfl

theorem decode_of_opcode_j (h : field w 0 3 = Format.j.opcode) :
    decode w = decodeJ (field w 15 1) (field w 6 3) (field w 9 6 ++ field w 3 3) := by
  rw [decode_of_opcode_ne (by rw [h]; decide), decodeFormat, h]
  rfl

theorem decode_of_opcode_u (h : field w 0 3 = Format.u.opcode) :
    decode w = decodeU (field w 15 1) (field w 6 3) (field w 9 6 ++ field w 3 3) := by
  rw [decode_of_opcode_ne (by rw [h]; decide), decodeFormat, h]
  rfl

end

theorem toBits_eq_zero_iff (r : Reg) : r.toBits = 0#3 ↔ r = .x0 := by cases r <;> decide

/-- An R word is the NOP word only when all its fields are zero (R104). -/
theorem encR_ne_zero {f4 : BitVec 4} {b a f3 : BitVec 3} (h : f4 ≠ 0#4 ∨ b ≠ 0#3 ∨ a ≠ 0#3) :
    encR f4 b a f3 ≠ 0x0000#16 := by
  intro hz
  have hf4 := field_encR_f4 f4 b a f3
  have hb := field_encR_b f4 b a f3
  have ha := field_encR_a f4 b a f3
  rw [hz] at hf4 hb ha
  rcases h with h | h | h
  · exact h hf4.symm
  · exact h hb.symm
  · exact h ha.symm

section
variable {f4 : BitVec 4} {b a f3 : BitVec 3}

theorem decode_encR (h : f4 ≠ 0#4 ∨ b ≠ 0#3 ∨ a ≠ 0#3) : decode (encR f4 b a f3) = decodeR f4 f3 a b := by
  rw [decode_of_opcode_r (encR_ne_zero h) (field_encR_op ..), field_encR_f4, field_encR_f3, field_encR_a, field_encR_b]

/-- Every row of R97 but ADD's has a funct4 that is not zero. -/
theorem decode_encR_of_funct4 (h : f4 ≠ 0#4) (rd rs2 : Reg) :
    decode (encR f4 rs2.toBits rd.toBits f3) = decodeR f4 f3 rd.toBits rs2.toBits := decode_encR (.inl h)

end

/-- The shift selector and amount count under funct3 = 011 only (R98). -/
theorem decode_encI (imm : BitVec 7) (a f3 : BitVec 3) :
    decode (encI imm a f3) =
      decodeI f3 a imm (field (encI imm a f3) 13 3) (field (encI imm a f3) 9 4) := by
  rw [decode_of_opcode_i (field_encI_op ..), field_encI_f3, field_encI_a, field_encI_imm]

theorem decode_encShift (sel : BitVec 3) (shamt : BitVec 4) (a : BitVec 3) :
    decode (encShift sel shamt a) = decodeShift sel a shamt := by
  rw [decode_of_opcode_i (field_encShift_op ..), field_encShift_f3, field_encShift_a, field_encShift_sel,
    field_encShift_shamt]
  rfl

section
variable (imm : BitVec 4) (b a f3 : BitVec 3)

theorem decode_encBSL_b : decode (encBSL imm b a f3 0b010#3) = decodeB f3 a b imm := by
  refine (decode_of_opcode_b (field_encBSL_op ..)).trans ?_
  rw [field_encBSL_f3, field_encBSL_a, field_encBSL_b, field_encBSL_imm]

theorem decode_encBSL_s : decode (encBSL imm b a f3 0b011#3) = decodeS f3 a b imm := by
  refine (decode_of_opcode_s (field_encBSL_op ..)).trans ?_
  rw [field_encBSL_f3, field_encBSL_a, field_encBSL_b, field_encBSL_imm]

theorem decode_encBSL_l : decode (encBSL imm b a f3 0b100#3) = decodeL f3 a b imm := by
  refine (decode_of_opcode_l (field_encBSL_op ..)).trans ?_
  rw [field_encBSL_f3, field_encBSL_a, field_encBSL_b, field_encBSL_imm]

end

section
variable (sel : BitVec 1) (imm : BitVec 9) (a : BitVec 3)

theorem decode_encJU_j : decode (encJU sel imm a 0b101#3) = decodeJ sel a imm := by
  refine (decode_of_opcode_j (field_encJU_op ..)).trans ?_
  rw [field_encJU_sel, field_encJU_a, field_encJU_hi, field_encJU_lo, imm9_parts]

theorem decode_encJU_u : decode (encJU sel imm a 0b110#3) = decodeU sel a imm := by
  refine (decode_of_opcode_u (field_encJU_op ..)).trans ?_
  rw [field_encJU_sel, field_encJU_a, field_encJU_hi, field_encJU_lo, imm9_parts]

end

theorem decode_encSys (svc : BitVec 10) : decode (encSys svc 0b000#3) = .instr (.ecall svc) := by
  rw [decode_of_opcode_sys (field_encSys_op ..), field_encSys_f3, field_encSys_svc, decodeSys_zero]

/-- `ADD x0, x0` is the one term without a word of its own (log 14). -/
theorem wellFormed_iff (i : Instr) : i.wellFormed = true ↔ i ≠ .add .x0 .x0 := by
  cases i with
  | add rd rs2 => cases rd <;> cases rs2 <;> decide
  | _ => exact iff_of_true rfl nofun

/-- Settles O2: the table of each format at its own word, where every operand is read back from its field. -/
theorem decodeInvertsEncode : Obligations.DecodeInvertsEncode := by
  unfold Obligations.DecodeInvertsEncode
  intro i hi
  cases i with
  | nop => exact decode_zero
  | add rd rs2 =>
    have hne : rs2.toBits ≠ 0#3 ∨ rd.toBits ≠ 0#3 := by
      rw [ne_eq, ne_eq, toBits_eq_zero_iff, toBits_eq_zero_iff, ← not_and_or]
      rintro ⟨rfl, rfl⟩
      exact (wellFormed_iff _).1 hi rfl
    simp [encode, decode_encR (.inr hne), decodeR]
  | sub | slt | sltu | sll | srl | sra | or | and | xor | mv | jalr =>
    simp [encode, decode_encR_of_funct4, decodeR]
  | jr rd ignored => simp [encode, decode_encR, decodeR]
  | slli | srli | srai => simp [encode, decode_encShift, decodeShift]
  | addi | slti | sltui | ori | andi | xori | li => simp [encode, decode_encI, decodeI]
  | beq | bne | bz | bnz | blt | bge | bltu | bgeu => simp [encode, decode_encBSL_b, decodeB]
  | sb | sw => simp [encode, decode_encBSL_s, decodeS]
  | lb | lw | lbu => simp [encode, decode_encBSL_l, decodeL]
  | j | jal => simp [encode, decode_encJU_j, decodeJ]
  | lui | auipc => simp [encode, decode_encJU_u, decodeU]
  | ecall svc => exact decode_encSys svc

/-! Each format's table read backwards: the word of what it answers has the fields it was given. -/

section
variable {f4 g4 imm4 shamt : BitVec 4} {f3 g3 a b sel3 : BitVec 3} {imm7 : BitVec 7} {sel : BitVec 1} {imm9 : BitVec 9}
  {svc : BitVec 10} {i : Instr}

theorem encR_congr (h4 : f4.toNat = g4.toNat) (h3 : f3.toNat = g3.toNat) : encR f4 b a f3 = encR g4 b a g3 := by
  rw [BitVec.eq_of_toNat_eq h4, BitVec.eq_of_toNat_eq h3]

theorem encI_congr (h3 : f3.toNat = g3.toNat) : encI imm7 a f3 = encI imm7 a g3 := by
  rw [BitVec.eq_of_toNat_eq h3]

theorem encShift_congr {sel sel' : BitVec 3} (h : sel.toNat = sel'.toNat) : encShift sel shamt a = encShift sel' shamt a := by
  rw [BitVec.eq_of_toNat_eq h]

theorem encBSL_congr (h3 : f3.toNat = g3.toNat) (op : BitVec 3) : encBSL imm4 b a f3 op = encBSL imm4 b a g3 op := by
  rw [BitVec.eq_of_toNat_eq h3]

theorem encJU_congr {sel sel' : BitVec 1} (h : sel.toNat = sel'.toNat) (op : BitVec 3) :
    encJU sel imm9 a op = encJU sel' imm9 a op := by
  rw [BitVec.eq_of_toNat_eq h]

theorem encSys_congr (h3 : f3.toNat = g3.toNat) : encSys svc f3 = encSys svc g3 := by
  rw [BitVec.eq_of_toNat_eq h3]

/-- The last arm of a match on a funct3 is the value the other arms leave. -/
theorem seven_eq_toNat (h0 : f3.toNat ≠ 0) (h1 : f3.toNat ≠ 1) (h2 : f3.toNat ≠ 2) (h3 : f3.toNat ≠ 3)
    (h4 : f3.toNat ≠ 4) (h5 : f3.toNat ≠ 5) (h6 : f3.toNat ≠ 6) : (7#3).toNat = f3.toNat := by
  rw [BitVec.toNat_ofNat]
  omega

theorem one_eq_toNat (h0 : sel.toNat ≠ 0) : (1#1).toNat = sel.toNat := by
  rw [BitVec.toNat_ofNat]
  omega

theorem encode_of_decodeR (h : decodeR f4 f3 a b = .instr i) : encode i = encR f4 b a f3 := by
  unfold decodeR at h
  split at h <;> cases h <;> simp only [encode, toBits_ofBits] <;> exact encR_congr (Eq.symm ‹_›) (Eq.symm ‹_›)

theorem encode_of_decodeShift (h : decodeShift sel3 a shamt = .instr i) : encode i = encShift sel3 shamt a := by
  unfold decodeShift at h
  split at h <;> cases h <;> simp only [encode, toBits_ofBits] <;> exact encShift_congr (Eq.symm ‹_›)

/-- Under funct3 = 011 the immediate field is the selector and the amount together (R83). -/
theorem encode_of_decodeI (hshift : f3.toNat = 3 → encShift sel3 shamt a = encI imm7 a f3)
    (h : decodeI f3 a imm7 sel3 shamt = .instr i) : encode i = encI imm7 a f3 := by
  unfold decodeI at h
  split at h
  case h_4 hf3 => exact (encode_of_decodeShift h).trans (hshift hf3)
  case h_8 =>
    have h7 : (7#3).toNat = f3.toNat := seven_eq_toNat ‹_› ‹_› ‹_› ‹_› ‹_› ‹_› ‹_›
    cases h
    simp only [encode, toBits_ofBits]
    exact encI_congr h7
  all_goals
    cases h
    simp only [encode, toBits_ofBits]
    exact encI_congr (Eq.symm ‹_›)

theorem encode_of_decodeB (h : decodeB f3 a b imm4 = .instr i) : encode i = encBSL imm4 b a f3 0b010#3 := by
  unfold decodeB at h
  split at h
  case h_8 =>
    have h7 : (7#3).toNat = f3.toNat := seven_eq_toNat ‹_› ‹_› ‹_› ‹_› ‹_› ‹_› ‹_›
    cases h
    simp only [encode, toBits_ofBits]
    exact encBSL_congr h7 _
  all_goals
    cases h
    simp only [encode, toBits_ofBits]
    exact encBSL_congr (Eq.symm ‹_›) _

theorem encode_of_decodeS (h : decodeS f3 a b imm4 = .instr i) : encode i = encBSL imm4 b a f3 0b011#3 := by
  unfold decodeS at h
  split at h <;> cases h <;> simp only [encode, toBits_ofBits] <;> exact encBSL_congr (Eq.symm ‹_›) _

theorem encode_of_decodeL (h : decodeL f3 a b imm4 = .instr i) : encode i = encBSL imm4 b a f3 0b100#3 := by
  unfold decodeL at h
  split at h <;> cases h <;> simp only [encode, toBits_ofBits] <;> exact encBSL_congr (Eq.symm ‹_›) _

theorem encode_of_decodeJ (h : decodeJ sel a imm9 = .instr i) : encode i = encJU sel imm9 a 0b101#3 := by
  unfold decodeJ at h
  split at h <;> cases h <;> simp only [encode, toBits_ofBits]
  · exact encJU_congr (Eq.symm ‹_›) _
  · exact encJU_congr (one_eq_toNat ‹_›) _

theorem encode_of_decodeU (h : decodeU sel a imm9 = .instr i) : encode i = encJU sel imm9 a 0b110#3 := by
  unfold decodeU at h
  split at h <;> cases h <;> simp only [encode, toBits_ofBits]
  · exact encJU_congr (Eq.symm ‹_›) _
  · exact encJU_congr (one_eq_toNat ‹_›) _

theorem encode_of_decodeSys (h : decodeSys f3 svc = .instr i) : encode i = encSys svc f3 := by
  unfold decodeSys at h
  split at h <;> cases h
  exact encSys_congr (Eq.symm ‹_›)

end

/-- The layouts put the fields of a word together again, whatever its opcode. -/
theorem encode_of_decodeFormat {w : Word} {i : Instr} (h : decodeFormat w = .instr i) : encode i = w := by
  obtain ⟨f, hop⟩ : ∃ f : Format, f.opcode = field w 0 3 := ⟨_, opcode_ofOpcode _⟩
  have hnat := congrArg BitVec.toNat hop.symm
  rw [decodeFormat, ← hop] at h
  have hbsl := encBSL_fields w
  have hju := encJU_fields w
  rw [← hop] at hbsl hju
  cases f with
  | r => exact (encode_of_decodeR h).trans (encR_fields w hnat)
  | i =>
    have hi := encI_fields w hnat
    exact (encode_of_decodeI (fun h3 => (encShift_fields w hnat h3).trans hi.symm) h).trans hi
  | b => exact (encode_of_decodeB h).trans hbsl
  | s => exact (encode_of_decodeS h).trans hbsl
  | l => exact (encode_of_decodeL h).trans hbsl
  | j => exact (encode_of_decodeJ h).trans hju
  | u => exact (encode_of_decodeU h).trans hju
  | sys => exact (encode_of_decodeSys h).trans (encSys_fields w hnat)

theorem encode_of_decode {w : Word} {i : Instr} (h : decode w = .instr i) : encode i = w := by
  unfold decode at h
  split at h
  case isTrue hw =>
    cases h
    exact hw.symm
  case isFalse => exact encode_of_decodeFormat h

/-- Settles O3: `encode_of_decode`, and the word of `ADD x0, x0` decodes to NOP, so no word decodes to that term. -/
theorem encodeInvertsDecode : Obligations.EncodeInvertsDecode := by
  unfold Obligations.EncodeInvertsDecode
  intro w i h
  have hw := encode_of_decode h
  refine ⟨hw, (wellFormed_iff i).2 ?_⟩
  rintro rfl
  rw [← hw] at h
  exact absurd h (by decide)

/-- Settles O1: each word is a literal, decoded by evaluation. -/
theorem decodesSpecWords : Obligations.DecodesSpecWords := by
  unfold Obligations.DecodesSpecWords
  decide

/-! The opcode maps under their masks. -/

/-- A word under a mask, field by field. -/
theorem and_eq_encBSL (w m : Word) :
    w &&& m = encBSL (field w 12 4 &&& field m 12 4) (field w 9 3 &&& field m 9 3) (field w 6 3 &&& field m 6 3)
      (field w 3 3 &&& field m 3 3) (field w 0 3 &&& field m 0 3) := by
  conv_lhs => rw [← encBSL_fields w, ← encBSL_fields m]
  refine BitVec.and_append.trans ?_
  simp only [BitVec.and_append, encBSL]

/-- The mask of R97 keeps funct4, funct3 and the opcode. -/
theorem toNat_and_maskR (w : Word) : (w &&& 0xF03F#16).toNat =
    (field w 12 4).toNat * 4096 + (field w 3 3).toNat * 8 + (field w 0 3).toNat := by
  have hmask : field 0xF03F#16 12 4 = BitVec.allOnes 4 ∧ field 0xF03F#16 9 3 = 0#3 ∧ field 0xF03F#16 6 3 = 0#3 ∧
      field 0xF03F#16 3 3 = BitVec.allOnes 3 ∧ field 0xF03F#16 0 3 = BitVec.allOnes 3 := by decide
  obtain ⟨h4, hb, ha, h3, hop⟩ := hmask
  rw [and_eq_encBSL, h4, hb, ha, h3, hop, toNat_encBSL]
  simp only [BitVec.and_allOnes, BitVec.and_zero, BitVec.toNat_zero, Nat.zero_mul, Nat.add_zero]

theorem toNat_and_maskF3 (w : Word) : (w &&& 0x003F#16).toNat = (field w 3 3).toNat * 8 + (field w 0 3).toNat := by
  have hmask : field 0x003F#16 12 4 = 0#4 ∧ field 0x003F#16 9 3 = 0#3 ∧ field 0x003F#16 6 3 = 0#3 ∧
      field 0x003F#16 3 3 = BitVec.allOnes 3 ∧ field 0x003F#16 0 3 = BitVec.allOnes 3 := by decide
  obtain ⟨h4, hb, ha, h3, hop⟩ := hmask
  rw [and_eq_encBSL, h4, hb, ha, h3, hop, toNat_encBSL]
  simp only [BitVec.and_allOnes, BitVec.and_zero, BitVec.toNat_zero, Nat.zero_mul, Nat.zero_add]

/-- The shift-selector mask of R98 keeps `w[15:13]`. -/
theorem toNat_and_maskSel (w : Word) : (w &&& 0xE000#16).toNat = (field w 13 3).toNat * 2 ^ 13 := by
  have hw : w = field w 13 3 ++ field w 0 13 := by
    apply BitVec.eq_of_toNat_eq
    rw [toNat_append_add, toNat_field, toNat_field]
    omega
  have hmask : 0xE000#16 = BitVec.allOnes 3 ++ 0#13 := by decide
  have hand : w &&& 0xE000#16 = (field w 13 3 &&& BitVec.allOnes 3) ++ (field w 0 13 &&& 0#13) := by
    conv_lhs => rw [hw, hmask]
    exact BitVec.and_append
  rw [hand, BitVec.and_allOnes, BitVec.and_zero, toNat_append_add, BitVec.toNat_zero, Nat.add_zero]

/-! A word that matches a row's mask is decoded by the row's fields. -/

section
variable {w bits mask : Word}

theorem ne_zero_of_and_eq (h : w &&& mask = bits) (hne : bits ≠ 0x0000#16) : w ≠ 0x0000#16 := by
  rintro rfl
  exact hne (by rw [← h, BitVec.zero_and])

theorem decode_of_maskR (h : w &&& 0xF03F#16 = bits) (hop : field bits 0 3 = 0b000#3) (hne : w ≠ 0x0000#16) :
    decode w = decodeR (field bits 12 4) (field bits 3 3) (field w 6 3) (field w 9 3) := by
  rw [decode_of_opcode_r hne ((field_eq_of_and_eq 0 3 h (by decide)).trans hop),
    field_eq_of_and_eq 12 4 h (by decide), field_eq_of_and_eq 3 3 h (by decide)]

/-- Every row of R97 but ADD's has bits that are not zero, so NOP does not come before it. -/
theorem decode_of_maskR_of_ne (hne : bits ≠ 0x0000#16) (hop : field bits 0 3 = 0b000#3) (h : w &&& 0xF03F#16 = bits) :
    decode w = decodeR (field bits 12 4) (field bits 3 3) (field w 6 3) (field w 9 3) :=
  decode_of_maskR h hop (ne_zero_of_and_eq h hne)

theorem decode_of_maskI (hop : field bits 0 3 = 0b001#3) (h : w &&& 0x003F#16 = bits) :
    decode w = decodeI (field bits 3 3) (field w 6 3) (field w 9 7) (field w 13 3) (field w 9 4) := by
  rw [decode_of_opcode_i ((field_eq_of_and_eq 0 3 h (by decide)).trans hop), field_eq_of_and_eq 3 3 h (by decide)]

theorem decode_of_maskShift (hop : field bits 0 3 = 0b001#3) (hf3 : field bits 3 3 = 0b011#3)
    (h : w &&& 0xE03F#16 = bits) : decode w = decodeShift (field bits 13 3) (field w 6 3) (field w 9 4) := by
  rw [decode_of_opcode_i ((field_eq_of_and_eq 0 3 h (by decide)).trans hop),
    (field_eq_of_and_eq 3 3 h (by decide)).trans hf3, field_eq_of_and_eq 13 3 h (by decide)]
  rfl

theorem decode_of_maskB (hop : field bits 0 3 = 0b010#3) (h : w &&& 0x003F#16 = bits) :
    decode w = decodeB (field bits 3 3) (field w 6 3) (field w 9 3) (field w 12 4) := by
  rw [decode_of_opcode_b ((field_eq_of_and_eq 0 3 h (by decide)).trans hop), field_eq_of_and_eq 3 3 h (by decide)]

theorem decode_of_maskS (hop : field bits 0 3 = 0b011#3) (h : w &&& 0x003F#16 = bits) :
    decode w = decodeS (field bits 3 3) (field w 6 3) (field w 9 3) (field w 12 4) := by
  rw [decode_of_opcode_s ((field_eq_of_and_eq 0 3 h (by decide)).trans hop), field_eq_of_and_eq 3 3 h (by decide)]

theorem decode_of_maskL (hop : field bits 0 3 = 0b100#3) (h : w &&& 0x003F#16 = bits) :
    decode w = decodeL (field bits 3 3) (field w 6 3) (field w 9 3) (field w 12 4) := by
  rw [decode_of_opcode_l ((field_eq_of_and_eq 0 3 h (by decide)).trans hop), field_eq_of_and_eq 3 3 h (by decide)]

theorem decode_of_maskJ (hop : field bits 0 3 = 0b101#3) (h : w &&& 0x8007#16 = bits) :
    decode w = decodeJ (field bits 15 1) (field w 6 3) (field w 9 6 ++ field w 3 3) := by
  rw [decode_of_opcode_j ((field_eq_of_and_eq 0 3 h (by decide)).trans hop), field_eq_of_and_eq 15 1 h (by decide)]

theorem decode_of_maskU (hop : field bits 0 3 = 0b110#3) (h : w &&& 0x8007#16 = bits) :
    decode w = decodeU (field bits 15 1) (field w 6 3) (field w 9 6 ++ field w 3 3) := by
  rw [decode_of_opcode_u ((field_eq_of_and_eq 0 3 h (by decide)).trans hop), field_eq_of_and_eq 15 1 h (by decide)]

end

/-! Where no row matches, the table answers UNKNOWN with its own reason (R106). -/

section
variable {f4 : BitVec 4} {f3 sel3 : BitVec 3}

/-- The matches of R97, funct4 and funct3 in their places. -/
def rowsR : List Word :=
  [0x0000#16, 0x1000#16, 0x2008#16, 0x3010#16, 0x4018#16, 0x5018#16, 0x6018#16, 0x7020#16, 0x8028#16, 0x9030#16,
    0xA038#16, 0xB000#16, 0xC000#16]

theorem decodeR_of_no_row (h : ∀ m ∈ rowsR, f4.toNat * 4096 + f3.toNat * 8 ≠ m.toNat) (a b : BitVec 3) :
    decodeR f4 f3 a b = .unknown .unknownR := by
  simp only [rowsR, List.forall_mem_cons] at h
  unfold decodeR
  split <;> simp_all

theorem decodeShift_of_no_row (h1 : sel3.toNat ≠ 1) (h2 : sel3.toNat ≠ 2) (h4 : sel3.toNat ≠ 4) (a : BitVec 3)
    (shamt : BitVec 4) : decodeShift sel3 a shamt = .unknown .unknownI := by
  unfold decodeShift
  split
  · contradiction
  · contradiction
  · contradiction
  · rfl

theorem decodeS_of_no_row (h0 : f3.toNat ≠ 0) (h1 : f3.toNat ≠ 1) (a b : BitVec 3) (imm4 : BitVec 4) :
    decodeS f3 a b imm4 = .unknown .unknownS := by
  unfold decodeS
  split
  · contradiction
  · contradiction
  · rfl

theorem decodeL_of_no_row (h0 : f3.toNat ≠ 0) (h1 : f3.toNat ≠ 1) (h4 : f3.toNat ≠ 4) (a b : BitVec 3)
    (imm4 : BitVec 4) : decodeL f3 a b imm4 = .unknown .unknownL := by
  unfold decodeL
  split
  · contradiction
  · contradiction
  · contradiction
  · rfl

end

/-- Settles O5: each row is the R table at the fields its mask fixes; a word under no row has a (funct4, funct3) that the
table does not list. -/
theorem rFormatOpcodeMap : Obligations.RFormatOpcodeMap := by
  unfold Obligations.RFormatOpcodeMap
  have row {w bits : Word} := @decode_of_maskR_of_ne w bits
  refine ⟨decode_zero, fun w hne h => decode_of_maskR h rfl hne, ?_⟩
  refine ⟨fun w => row (by decide) rfl, fun w => row (by decide) rfl, fun w => row (by decide) rfl,
    fun w => row (by decide) rfl, fun w => row (by decide) rfl, fun w => row (by decide) rfl,
    fun w => row (by decide) rfl, fun w => row (by decide) rfl, fun w => row (by decide) rfl,
    fun w => row (by decide) rfl, fun w => row (by decide) rfl, fun w => row (by decide) rfl, fun w hop hrows => ?_⟩
  have hop3 : field w 0 3 = Format.r.opcode := (and_opcodeMask_eq_iff w Format.r.opcode).1 hop
  have hne : w ≠ 0x0000#16 := by
    rintro rfl
    exact hrows 0x0000#16 (by decide) rfl
  rw [decode_of_opcode_r hne hop3]
  refine decodeR_of_no_row (fun m hm heq => hrows m hm (BitVec.eq_of_toNat_eq ?_)) _ _
  rw [toNat_and_maskR, hop3, ← heq]
  exact Nat.add_zero _

/-- Settles O6: the rows of R98 under their masks; the selectors that are no row are what the mask of `w[15:13]` leaves. -/
theorem iFormatOpcodeMap : Obligations.IFormatOpcodeMap := by
  unfold Obligations.IFormatOpcodeMap
  refine ⟨fun w => decode_of_maskI rfl, fun w => decode_of_maskI rfl, fun w => decode_of_maskI rfl,
    fun w => decode_of_maskShift rfl rfl, fun w => decode_of_maskShift rfl rfl, fun w => decode_of_maskShift rfl rfl,
    fun w => decode_of_maskI rfl, fun w => decode_of_maskI rfl, fun w => decode_of_maskI rfl,
    fun w => decode_of_maskI rfl, fun w h hrows => ?_⟩
  have hsel : ∀ m ∈ [0x2000#16, 0x4000#16, 0x8000#16], (field w 13 3).toNat * 2 ^ 13 ≠ m.toNat := fun m hm heq =>
    hrows m hm (BitVec.eq_of_toNat_eq ((toNat_and_maskSel w).trans heq))
  simp only [List.forall_mem_cons, BitVec.toNat_ofNat] at hsel
  obtain ⟨h1, h2, h4, -⟩ := hsel
  exact (decode_of_maskI rfl h).trans (decodeShift_of_no_row (by omega) (by omega) (by omega) _ _)

/-- Settles O7: the eight rows of R99 under the mask of funct3 and the opcode. -/
theorem bFormatOpcodeMap : Obligations.BFormatOpcodeMap := by
  unfold Obligations.BFormatOpcodeMap
  exact ⟨fun w => decode_of_maskB rfl, fun w => decode_of_maskB rfl, fun w => decode_of_maskB rfl,
    fun w => decode_of_maskB rfl, fun w => decode_of_maskB rfl, fun w => decode_of_maskB rfl,
    fun w => decode_of_maskB rfl, fun w => decode_of_maskB rfl⟩

/-- Settles O8: the rows of R100 and R101 under their masks, and the funct3 values that are no row. -/
theorem storeLoadOpcodeMap : Obligations.StoreLoadOpcodeMap := by
  unfold Obligations.StoreLoadOpcodeMap
  refine ⟨fun w => decode_of_maskS rfl, fun w => decode_of_maskS rfl, fun w => decode_of_maskL rfl,
    fun w => decode_of_maskL rfl, fun w => decode_of_maskL rfl, fun w hop hrows => ?_, fun w hop hrows => ?_⟩
  · have hop3 : field w 0 3 = 0b011#3 := (and_opcodeMask_eq_iff w 0b011#3).1 hop
    simp only [List.forall_mem_cons, ← BitVec.toNat_ne_iff_ne, toNat_and_maskF3, hop3, BitVec.toNat_ofNat] at hrows
    obtain ⟨h0, h1, -⟩ := hrows
    exact (decode_of_opcode_s hop3).trans (decodeS_of_no_row (by omega) (by omega) _ _ _)
  · have hop3 : field w 0 3 = 0b100#3 := (and_opcodeMask_eq_iff w 0b100#3).1 hop
    simp only [List.forall_mem_cons, ← BitVec.toNat_ne_iff_ne, toNat_and_maskF3, hop3, BitVec.toNat_ofNat] at hrows
    obtain ⟨h0, h1, h4, -⟩ := hrows
    exact (decode_of_opcode_l hop3).trans (decodeL_of_no_row (by omega) (by omega) (by omega) _ _ _)

/-- Settles O9: bit 15 and the opcode fix the row, and the two halves of the immediate are read as the tables give them. -/
theorem jumpUpperOpcodeMap : Obligations.JumpUpperOpcodeMap := by
  unfold Obligations.JumpUpperOpcodeMap
  exact ⟨fun w => decode_of_maskJ rfl, fun w => decode_of_maskJ rfl, fun w => decode_of_maskU rfl,
    fun w => decode_of_maskU rfl⟩

end Sys2Proof
end

section
/-! PROOFS of the results of the R, I, J and U formats (41_r_type.md, 42_i_type.md, 46_j_type.md, 47_u_type.md) and of the
effective address (20_memory.md section 6): the ALU's operations as integer arithmetic, then one retirement per form. -/

namespace Sys2Proof.Machine

/-! Word arithmetic as integer arithmetic that wraps (00_scope.md R11). -/

section
variable (a b : Word)

theorem add_eq_ofNat : a + b = BitVec.ofNat 16 (a.toNat + b.toNat) := by
  rw [BitVec.ofNat_add, BitVec.ofNat_toNat, BitVec.ofNat_toNat, BitVec.setWidth_eq, BitVec.setWidth_eq]

theorem add_ofInt_eq (k : Int) : a + BitVec.ofInt 16 k = BitVec.ofInt 16 ((a.toNat : Int) + k) := by
  rw [BitVec.ofInt_add, BitVec.ofInt_natCast, BitVec.ofNat_toNat, BitVec.setWidth_eq]

theorem sub_eq_ofInt : a - b = BitVec.ofInt 16 ((a.toNat : Int) - (b.toNat : Int)) := by
  apply BitVec.eq_of_toNat_eq
  rw [BitVec.toNat_sub, BitVec.toNat_ofInt]
  omega

theorem boolWord_decide (p : Prop) [Decidable p] : boolWord (decide p) = if p then 1#16 else 0#16 := by
  simp [boolWord]

theorem alu_slt : alu .slt a b = if a.toInt < b.toInt then 1#16 else 0#16 := by
  rw [alu, ltS_eq, boolWord_decide]

theorem alu_sltu : alu .sltu a b = if a.toNat < b.toNat then 1#16 else 0#16 := boolWord_decide _

variable {b : Word} {n : Nat} (hn : b.toNat = n)
include hn

theorem alu_sll : alu .sll a b = BitVec.ofNat 16 (a.toNat * 2 ^ n) := by
  apply BitVec.eq_of_toNat_eq
  rw [alu, shiftLeft, hn, BitVec.toNat_shiftLeft, Nat.shiftLeft_eq, BitVec.toNat_ofNat]

theorem alu_srl : alu .srl a b = BitVec.ofNat 16 (a.toNat / 2 ^ n) := by
  apply BitVec.eq_of_toNat_eq
  rw [alu, shiftRightU, hn, BitVec.toNat_ushiftRight, Nat.shiftRight_eq_div_pow, BitVec.toNat_ofNat, Nat.mod_eq_of_lt]
  exact (Nat.div_le_self _ _).trans_lt a.isLt

theorem alu_sra : alu .sra a b = BitVec.ofInt 16 (a.toInt / 2 ^ n) := by
  rw [alu, shiftRightS, hn, BitVec.sshiftRight_eq, Int.shiftRight_eq_div_pow]
  norm_cast

end

/-! The immediates as the words of their numbers (30_encoding.md R91 to R96). -/

theorem immI_eq_ofInt (imm : BitVec 7) : immI imm = BitVec.ofInt 16 imm.toInt := by
  rw [← toInt_immI, BitVec.ofInt_toInt]

theorem immJ_eq_ofInt (imm : BitVec 9) : immJ imm = BitVec.ofInt 16 (2 * imm.toInt) := by
  rw [← toInt_immJ, BitVec.ofInt_toInt]

theorem immSL_eq_ofInt (imm : BitVec 4) : immSL imm = BitVec.ofInt 16 imm.toInt := by
  rw [← toInt_immSL, BitVec.ofInt_toInt]

theorem immU_eq_ofNat (imm : BitVec 9) : immU imm = BitVec.ofNat 16 (imm.toNat * 128) := by
  rw [← toNat_immU, BitVec.ofNat_toNat, BitVec.setWidth_eq]

theorem add_immI (a : Word) (imm : BitVec 7) : a + immI imm = BitVec.ofInt 16 (a.toInt + imm.toInt) := by
  rw [immI_eq_ofInt, BitVec.ofInt_add, BitVec.ofInt_toInt]

theorem add_immU (a : Word) (imm : BitVec 9) : a + immU imm = BitVec.ofNat 16 (a.toNat + imm.toNat * 128) := by
  rw [add_eq_ofNat, toNat_immU]

/-- An Outcome Next with one register write is that write and the PC's advance (40_cycle.md R126). -/
theorem writesRegister_of_retire {i : Instr} {s : State} {rd : Reg} {u v : Word}
    (h : exec i s = retire (.next { reg := some (rd, u) }) s) (hv : u = v) : WritesRegister i s rd v := by
  subst hv
  exact h

/-- Settles O13: each operation of the ALU at the old rd and at rs2, whose low four bits are a shift's amount. -/
theorem registerAluResults : Obligations.RegisterAluResults := by
  unfold Obligations.RegisterAluResults
  intro s rd rs2 a b
  have hshamt := toNat_shiftAmount b
  exact ⟨writesRegister_of_retire rfl (add_eq_ofNat a b), writesRegister_of_retire rfl (sub_eq_ofInt a b),
    writesRegister_of_retire rfl (alu_slt a b), writesRegister_of_retire rfl (alu_sltu a b),
    writesRegister_of_retire rfl (alu_sll a hshamt), writesRegister_of_retire rfl (alu_srl a hshamt),
    writesRegister_of_retire rfl (alu_sra a hshamt), writesRegister_of_retire rfl rfl,
    writesRegister_of_retire rfl rfl, writesRegister_of_retire rfl rfl⟩

/-- Settles O14: the ALU's operations at the sign-extended immediate, and at the shift amount as it stands. -/
theorem immediateAluResults : Obligations.ImmediateAluResults := by
  unfold Obligations.ImmediateAluResults
  intro s rd imm shamt a k
  have hk : immI imm = k := immI_eq_ofInt imm
  have hshamt := toNat_immShamt shamt
  have hslt : alu .slt a (immI imm) = if a.toInt < imm.toInt then 1#16 else 0#16 := by rw [alu_slt, toInt_immI]
  have hsltu : alu .sltu a (immI imm) = if a.toNat < k.toNat then 1#16 else 0#16 := by rw [alu_sltu, hk]
  exact ⟨writesRegister_of_retire rfl (add_immI a imm), writesRegister_of_retire rfl hslt,
    writesRegister_of_retire rfl hsltu, writesRegister_of_retire rfl (alu_sll a hshamt),
    writesRegister_of_retire rfl (alu_srl a hshamt), writesRegister_of_retire rfl (alu_sra a hshamt),
    writesRegister_of_retire rfl (congrArg (a ||| ·) hk), writesRegister_of_retire rfl (congrArg (a &&& ·) hk),
    writesRegister_of_retire rfl (congrArg (a ^^^ ·) hk), writesRegister_of_retire rfl hk⟩

/-- Settles O15: the U immediate is its field at bit 7. -/
theorem moveAndUpperResults : Obligations.MoveAndUpperResults := by
  unfold Obligations.MoveAndUpperResults
  intro s rd rs2 imm
  exact ⟨writesRegister_of_retire rfl rfl, writesRegister_of_retire rfl (immU_eq_ofNat imm),
    writesRegister_of_retire rfl (add_immU s.pc imm)⟩

/-- Settles O16: NOP retires with no write. -/
theorem nopAdvancesOnly : Obligations.NopAdvancesOnly := by
  unfold Obligations.NopAdvancesOnly
  intro s
  rfl

/-- An Outcome Jump is its register write, if any, and the target (40_cycle.md R126). -/
theorem retire_jump (reg : Option (Reg × Word)) (target : Word) (s : State) :
    retire (.jump { reg := reg } target) s =
      .next { s with pc := target, x := (applyWrites { reg := reg } s).x } := rfl

/-- Settles O17: the target is the register's value before the link is written. -/
theorem registerJumpsAndLink : Obligations.RegisterJumpsAndLink := by
  unfold Obligations.RegisterJumpsAndLink
  intro s rd rs2 ignored
  exact ⟨retire_jump none (s.x.get rd) s, retire_jump (some (rd, s.pcNext)) (s.x.get rs2) s⟩

theorem pcNext_add_immJ (s : State) (imm : BitVec 9) :
    s.pcNext + immJ imm = BitVec.ofInt 16 ((s.pc.toNat : Int) + 2 + 2 * imm.toInt) := by
  have htwo : (2#16 : Word) = BitVec.ofInt 16 2 := rfl
  rw [State.pcNext, immJ_eq_ofInt, BitVec.add_assoc, htwo, ← BitVec.ofInt_add, add_ofInt_eq, ← Int.add_assoc]

/-- Settles O18: JAL's link is absent exactly at x0 (D9). -/
theorem relativeJumpsAndLink : Obligations.RelativeJumpsAndLink := by
  unfold Obligations.RelativeJumpsAndLink
  intro s rd ignored imm target
  have htarget : s.pcNext + immJ imm = target := pcNext_add_immJ s imm
  refine ⟨?_, fun hrd => ?_, ?_⟩
  · exact htarget ▸ retire_jump none (s.pcNext + immJ imm) s
  · have hlink : (if rd = .x0 then none else some (rd, s.pcNext)) = some (rd, s.pcNext) := if_neg hrd
    show retire (.jump { reg := if rd = .x0 then none else some (rd, s.pcNext) } (s.pcNext + immJ imm)) s = _
    rw [hlink, htarget, retire_jump]
    rfl
  · exact htarget ▸ retire_jump none (s.pcNext + immJ imm) s

/-- Settles O20: the wrapping sum is the integer sum modulo 2^16, and the offset reaches -8 to 7. -/
theorem effectiveAddresses : Obligations.EffectiveAddresses := by
  unfold Obligations.EffectiveAddresses
  intro base imm
  have hlo := imm.le_toInt
  have hhi := imm.toInt_lt
  have hbase := base.isLt
  have hfault : effectiveAddress .fault base imm = (base.toNat : Int) + imm.toInt := by
    rw [effectiveAddress, toInt_immSL]
  refine ⟨?_, hfault, ?_, ?_⟩
  · rw [effectiveAddress, immSL_eq_ofInt, add_ofInt_eq, BitVec.toNat_ofInt]
    omega
  · omega
  · omega

end Sys2Proof.Machine
end

section
/-! PROOFS of the memory port and of the loads and stores (20_memory.md, 44_s_type.md, 45_l_type.md): each port operation at
an address inside the space, outside it, and odd; then the instructions that use it. -/

namespace Sys2Proof.Machine

/-! The memory port, one equation per kind of address (R52 to R57). -/

section
variable {a : Int}

theorem load8_of_bounds (m : Memory) (hlo : 0 ≤ a) (hhi : a ≤ 65535) : load8 m a = .ok (m.byte a.toNat) := by
  obtain ⟨-, -, h⟩ | ⟨hout, -⟩ := load8_cases m a
  · exact h
  · omega

theorem load8_of_outside (m : Memory) (hout : a < 0 ∨ 65535 < a) : load8 m a = .error (.outOfBounds a) := by
  obtain ⟨_, _, -⟩ | ⟨-, h⟩ := load8_cases m a
  · omega
  · exact h

theorem store8_of_bounds (m : Memory) (v : Byte) (hlo : 0 ≤ a) (hhi : a ≤ 65535) :
    store8 m a v = .ok (m.setByte a.toNat v) := by
  obtain ⟨-, -, h⟩ | ⟨hout, -⟩ := store8_cases m a v
  · exact h
  · omega

theorem store8_of_outside (m : Memory) (v : Byte) (hout : a < 0 ∨ 65535 < a) :
    store8 m a v = .error (.outOfBounds a) := by
  obtain ⟨_, _, -⟩ | ⟨-, h⟩ := store8_cases m a v
  · omega
  · exact h

theorem load16_of_even (m : Memory) (heven : a % 2 = 0) (hlo : 0 ≤ a) (hhi : a ≤ 65534) :
    load16 m a = .ok (wordOfBytes (m.byte a.toNat) (m.byte (a.toNat + 1))) := by
  obtain ⟨-, -, -, h⟩ | ⟨hodd, -⟩ | ⟨-, hout, -⟩ := load16_cases m a
  · exact h
  · omega
  · omega

theorem load16_of_odd (m : Memory) (hodd : a % 2 = 1) : load16 m a = .error (.misaligned a) := by
  obtain ⟨heven, -⟩ | ⟨-, h⟩ | ⟨heven, -⟩ := load16_cases m a
  · omega
  · exact h
  · omega

theorem load16_of_outside (m : Memory) (heven : a % 2 = 0) (hout : a < 0 ∨ 65534 < a) :
    load16 m a = .error (.outOfBounds a) := by
  obtain ⟨-, _, _, -⟩ | ⟨hodd, -⟩ | ⟨-, -, h⟩ := load16_cases m a
  · omega
  · omega
  · exact h

theorem store16_of_even (m : Memory) (v : Word) (heven : a % 2 = 0) (hlo : 0 ≤ a) (hhi : a ≤ 65534) :
    store16 m a v = .ok (m.setWord a.toNat v) := by
  obtain ⟨-, -, -, h⟩ | ⟨hodd, -⟩ | ⟨-, hout, -⟩ := store16_cases m a v
  · exact h
  · omega
  · omega

theorem store16_of_odd (m : Memory) (v : Word) (hodd : a % 2 = 1) : store16 m a v = .error (.misaligned a) := by
  obtain ⟨heven, -⟩ | ⟨-, h⟩ | ⟨heven, -⟩ := store16_cases m a v
  · omega
  · exact h
  · omega

theorem store16_of_outside (m : Memory) (v : Word) (heven : a % 2 = 0) (hout : a < 0 ∨ 65534 < a) :
    store16 m a v = .error (.outOfBounds a) := by
  obtain ⟨-, _, _, -⟩ | ⟨hodd, -⟩ | ⟨-, -, h⟩ := store16_cases m a v
  · omega
  · omega
  · exact h

end

/-! The bytes a canonical memory reads after a write. -/

section
variable {m : Memory} (h : m.wf = true) (a : Nat)
include h

theorem byte_setByte_self (v : Byte) : (m.setByte a v).byte a = v := by
  rw [byte_setByte h, if_pos rfl]

theorem byte_setByte_of_ne (v : Byte) {c : Nat} (hc : c ≠ a) : (m.setByte a v).byte c = m.byte c := by
  rw [byte_setByte h, if_neg hc]

variable {a} (ha : a + 1 < 65536) (v : Word)
include ha

theorem byte_setWord_low : (m.setWord a v).byte a = lowByte v := by
  rw [byte_setWord h ha, if_neg (Nat.succ_ne_self a).symm, if_pos rfl]

theorem byte_setWord_high : (m.setWord a v).byte (a + 1) = highByte v := by
  rw [byte_setWord h ha, if_pos rfl]

theorem byte_setWord_of_ne {c : Nat} (hlow : c ≠ a) (hhigh : c ≠ a + 1) : (m.setWord a v).byte c = m.byte c := by
  rw [byte_setWord h ha, if_neg hhigh, if_neg hlow]

end

/-- Settles O28: the five cases of an address at the two loads. -/
theorem memoryPortLoads : Obligations.MemoryPortLoads := by
  unfold Obligations.MemoryPortLoads
  intro m a
  refine ⟨fun hout => load8_of_outside m (by omega), fun hlo hhi => load8_of_bounds m hlo (by omega), load16_of_odd m,
    fun heven hout => load16_of_outside m heven (by omega), fun heven hlo hhi => ?_⟩
  rw [load16_of_even m heven hlo (by omega), wordOfBytes_eq_ofNat]

/-- Settles O29: in range the port answers `setByte`, whose frame is `byte_setByte`. -/
theorem memoryPortByteStore : Obligations.MemoryPortByteStore := by
  unfold Obligations.MemoryPortByteStore
  intro m a v hwf
  refine ⟨fun hout => store8_of_outside m _ (by omega), fun hlo hhi => ?_⟩
  refine ⟨_, store8_of_bounds m _ hlo (by omega), wf_setByte hwf (by omega) _, ?_, fun c => byte_setByte_of_ne hwf _ _⟩
  rw [byte_setByte_self hwf, toNat_lowByte]

/-- Settles O30: the checks come first, and then the port answers `setWord`, whose frame is `byte_setWord`. -/
theorem memoryPortWordStore : Obligations.MemoryPortWordStore := by
  unfold Obligations.MemoryPortWordStore
  intro m a v hwf
  refine ⟨store16_of_odd m v, fun heven hout => store16_of_outside m v heven (by omega), fun heven hlo hhi => ?_⟩
  have ha : a.toNat + 1 < 65536 := by omega
  refine ⟨_, store16_of_even m v heven hlo (by omega), wf_setWord hwf ha v, ?_, ?_, fun c => byte_setWord_of_ne hwf ha v⟩
  · rw [byte_setWord_low hwf ha, toNat_lowByte]
  · rw [byte_setWord_high hwf ha, toNat_highByte]

theorem lowByte_eq_ofNat (v : Word) : lowByte v = BitVec.ofNat 8 (v.toNat % 256) := by
  rw [← toNat_lowByte, BitVec.ofNat_toNat, BitVec.setWidth_eq]

theorem highByte_eq_ofNat (v : Word) : highByte v = BitVec.ofNat 8 (v.toNat / 256) := by
  rw [← toNat_highByte, BitVec.ofNat_toNat, BitVec.setWidth_eq]

/-- Settles O31: the low byte is at the even address and the high byte above it, whichever width wrote them. -/
theorem mixedWidthRoundTrips : Obligations.MixedWidthRoundTrips := by
  unfold Obligations.MixedWidthRoundTrips
  intro m a lo hi v hwf heven hhi
  have ha : a + 1 < 65536 := by omega
  have hnext : ((a : Int) + 1).toNat = a + 1 := rfl
  refine ⟨⟨m.setWord a v, store16_of_even m v (by omega) (by omega) (by omega), ?_, ?_, ?_⟩,
    m.setByte a lo, (m.setByte a lo).setByte (a + 1) hi, store8_of_bounds m lo (by omega) (by omega),
    store8_of_bounds _ hi (by omega) (by omega), ?_⟩
  · rw [load16_of_even _ (by omega) (by omega) (by omega), Int.toNat_natCast, wordOfBytes_byte_setWord hwf ha]
  · rw [load8_of_bounds _ (by omega) (by omega), Int.toNat_natCast, byte_setWord_low hwf ha, lowByte_eq_ofNat]
  · rw [load8_of_bounds _ (by omega) (by omega), hnext, byte_setWord_high hwf ha, highByte_eq_ofNat]
  · rw [load16_of_even _ (by omega) (by omega) (by omega), Int.toNat_natCast,
      wordOfBytes_setByte_high (wf_setByte hwf (by omega) lo), byte_setByte_self hwf, wordOfBytes_eq_ofNat]

/-! The canonical form. -/

/-- The first entry of a canonical memory reads as itself, and that is no blank. -/
theorem byte_cons_self (k : Nat) (b : Byte) (m : Memory) : Memory.byte ((k, b) :: m) k = b := by
  rw [byte_cons, if_pos rfl]

/-- In a canonical memory the first entry is the lowest address that does not read as blank. -/
theorem byte_cons_of_lt {k : Nat} {b : Byte} {m : Memory} {lo a : Nat} (h : Memory.wfFrom lo ((k, b) :: m) = true)
    (ha : a < k) : Memory.byte ((k, b) :: m) a = blankByte := by
  rw [wfFrom_cons] at h
  exact byte_of_lt ((wfFrom_cons k k b m).2 ⟨le_rfl, h.2⟩) ha

theorem eq_of_byte_eq {m m' : Memory} {lo lo' : Nat} (h : Memory.wfFrom lo m = true) (h' : Memory.wfFrom lo' m' = true)
    (hread : ∀ a, m.byte a = m'.byte a) : m = m' := by
  induction m generalizing lo lo' m' with
  | nil =>
    cases m' with
    | nil => rfl
    | cons e' m' =>
      obtain ⟨_, _, hb', _⟩ := (wfFrom_cons ..).1 h'
      exact absurd ((byte_cons_self ..).symm.trans (hread e'.1).symm) hb'
  | cons e m ih =>
    obtain ⟨k, b⟩ := e
    obtain ⟨_, _, hb, hm⟩ := (wfFrom_cons ..).1 h
    cases m' with
    | nil => exact absurd ((byte_cons_self k b m).symm.trans (hread k)) hb
    | cons e' m' =>
      obtain ⟨k', b'⟩ := e'
      obtain ⟨_, _, hb', hm'⟩ := (wfFrom_cons ..).1 h'
      have hk : k = k' := by
        rcases lt_trichotomy k k' with hlt | heq | hgt
        · exact absurd ((byte_cons_self k b m).symm.trans ((hread k).trans (byte_cons_of_lt h' hlt))) hb
        · exact heq
        · exact absurd ((byte_cons_self k' b' m').symm.trans ((hread k').symm.trans (byte_cons_of_lt h hgt))) hb'
      subst hk
      have hbb : b = b' := by
        have := hread k
        rwa [byte_cons_self, byte_cons_self] at this
      have htail : ∀ a, Memory.byte m a = Memory.byte m' a := by
        intro a
        by_cases ha : a < k + 1
        · rw [byte_of_lt hm ha, byte_of_lt hm' ha]
        · have hka : k ≠ a := by omega
          have := hread a
          rwa [byte_cons, byte_cons, if_neg hka, if_neg hka] at this
      rw [hbb, ih hm hm' htail]

/-- Settles O32: past the space both memories read as blank, so they read alike everywhere. -/
theorem canonicalMemoriesAreEqual : Obligations.CanonicalMemoriesAreEqual := by
  unfold Obligations.CanonicalMemoriesAreEqual
  intro m m' h h' hread
  refine eq_of_byte_eq h h' fun a => ?_
  by_cases ha : a < 65536
  · exact hread a ha
  · rw [byte_of_ge h (by omega), byte_of_ge h' (by omega)]

/-! The loads and stores. -/

/-- Settles O21: `exec_sb_of_bounds` with the frame of `setByte`. -/
theorem storeByteEffect : Obligations.StoreByteEffect := by
  unfold Obligations.StoreByteEffect
  intro s rs1 rs2 imm hwf hlo hhi
  refine ⟨_, exec_sb_of_bounds hlo hhi rs2, ?_, fun c => byte_setByte_of_ne hwf _ _⟩
  rw [byte_setByte_self hwf, toNat_lowByte]

/-- Settles O22: `exec_sw_of_even` with the frame of `setWord`. -/
theorem storeWordEffect : Obligations.StoreWordEffect := by
  unfold Obligations.StoreWordEffect
  intro s rs1 rs2 imm hwf hlo hhi heven
  have ha : (s.ea rs1 imm).toNat + 1 < 65536 := by omega
  refine ⟨_, exec_sw_of_even heven hlo hhi rs2, ?_, ?_, fun c => byte_setWord_of_ne hwf ha _⟩
  · rw [byte_setWord_low hwf ha, toNat_lowByte]
  · rw [byte_setWord_high hwf ha, toNat_highByte]

/-- An Outcome Fault is fault entry, whose writes are `halted` and `stop` (60_exceptions.md R279). -/
theorem takesFault_of_retire {i : Instr} {s : State} {o : EngineOutcome} {f : CoreFault} (h : exec i s = retire o s)
    (ho : o = .fault f) : TakesFault i s f := by
  subst ho
  exact h

section
variable {s : State} {base : Reg} {imm : BitVec 4}

theorem loadByte_of_bounds (hlo : 0 ≤ s.ea base imm) (hhi : s.ea base imm ≤ 65535) (extend : Byte → Word) (w : Word)
    (rd : Reg) : loadByte extend w rd base imm s =
      .next { reg := some (rd, extend (s.mem.byte (s.ea base imm).toNat)) } := by
  rw [loadByte, load8_of_bounds _ hlo hhi]

theorem loadByte_of_outside (hout : s.ea base imm < 0 ∨ 65535 < s.ea base imm) (extend : Byte → Word) (w : Word)
    (rd : Reg) : loadByte extend w rd base imm s = .fault (.outOfBounds (s.ea base imm) s.pc (some w)) := by
  rw [loadByte, load8_of_outside _ hout]
  rfl

theorem storeByte_of_outside (hout : s.ea base imm < 0 ∨ 65535 < s.ea base imm) (w : Word) (data : Reg) :
    storeByte w base data imm s = .fault (.outOfBounds (s.ea base imm) s.pc (some w)) := by
  rw [storeByte, store8_of_outside _ _ hout]
  rfl

theorem loadWord_of_odd (hodd : s.ea base imm % 2 = 1) (w : Word) (rd : Reg) :
    loadWord w rd base imm s = .fault (.misaligned (s.ea base imm) s.pc (some w)) := by
  rw [loadWord, load16_of_odd _ hodd]
  rfl

theorem storeWord_of_odd (hodd : s.ea base imm % 2 = 1) (w : Word) (data : Reg) :
    storeWord w base data imm s = .fault (.misaligned (s.ea base imm) s.pc (some w)) := by
  rw [storeWord, store16_of_odd _ _ hodd]
  rfl

variable (heven : s.ea base imm % 2 = 0) (hout : s.ea base imm < 0 ∨ 65534 < s.ea base imm)
include heven hout

theorem loadWord_of_outside (w : Word) (rd : Reg) :
    loadWord w rd base imm s = .fault (.outOfBounds (s.ea base imm) s.pc (some w)) := by
  rw [loadWord, load16_of_outside _ heven hout]
  rfl

theorem storeWord_of_outside (w : Word) (data : Reg) :
    storeWord w base data imm s = .fault (.outOfBounds (s.ea base imm) s.pc (some w)) := by
  rw [storeWord, store16_of_outside _ _ heven hout]
  rfl

end

theorem sext_byte_eq_ofInt (b : Byte) : sext b = BitVec.ofInt 16 b.toInt := by
  rw [← toInt_sext b (by omega), BitVec.ofInt_toInt]

theorem zext_byte_eq_ofNat (b : Byte) : zext b = BitVec.ofNat 16 b.toNat := by
  rw [← toNat_zext b (by omega), BitVec.ofNat_toNat, BitVec.setWidth_eq]

/-- Settles O23: the byte loads differ in the extension only, and LW is `exec_lw_of_even`. -/
theorem loadEffects : Obligations.LoadEffects := by
  unfold Obligations.LoadEffects
  intro s rd rs2 imm hlo
  refine ⟨fun hhi => ⟨?_, ?_⟩, fun hhi heven => ?_⟩
  · exact writesRegister_of_retire (congrArg (retire · s) (loadByte_of_bounds hlo hhi sext _ rd)) (sext_byte_eq_ofInt _)
  · exact writesRegister_of_retire (congrArg (retire · s) (loadByte_of_bounds hlo hhi zext _ rd)) (zext_byte_eq_ofNat _)
  · rw [WritesRegister, exec_lw_of_even heven hlo hhi, wordOfBytes_eq_ofNat]
    rfl

/-- A step at an odd PC reaches the fetch and no further (60_exceptions.md R281). -/
theorem step_of_odd_pc {s : State} (hh : s.halted = false) (hend : atImageEnd s = false) (hodd : s.pc.toNat % 2 = 1) :
    step s = .next (takeFault (.misaligned (s.pc.toNat : Int) s.pc none) s) := by
  rcases step_cases s with ⟨hh', _⟩ | ⟨_, hend', _⟩ | ⟨_, _, _, hs⟩ | ⟨_, hf, _⟩ | ⟨_, hf, _⟩
  · cases hh.symm.trans hh'
  · cases hend.symm.trans hend'
  · exact hs
  all_goals
    obtain ⟨_, _, heven⟩ := (fetches_iff s).1 hf
    omega

/-- Settles O24: the port's alignment check, at the two halfword instructions and at the fetch. -/
theorem oddAddressesAreMisaligned : Obligations.OddAddressesAreMisaligned := by
  unfold Obligations.OddAddressesAreMisaligned
  exact ⟨fun m a v hodd => ⟨load16_of_odd m hodd, store16_of_odd m v hodd⟩,
    fun s r q imm hodd => ⟨takesFault_of_retire rfl (loadWord_of_odd hodd _ r),
      takesFault_of_retire rfl (storeWord_of_odd hodd _ r)⟩,
    fun s hh hend hodd => step_of_odd_pc hh hend hodd⟩

/-- Settles O25: the port's bounds check, after the alignment check for a halfword. -/
theorem outOfBoundsAccessesFault : Obligations.OutOfBoundsAccessesFault := by
  unfold Obligations.OutOfBoundsAccessesFault
  exact fun s r q imm => ⟨fun hout => ⟨takesFault_of_retire rfl (loadByte_of_outside hout sext _ r),
      takesFault_of_retire rfl (loadByte_of_outside hout zext _ r),
      takesFault_of_retire rfl (storeByte_of_outside hout _ r)⟩,
    fun hout heven => ⟨takesFault_of_retire rfl (loadWord_of_outside heven hout _ r),
      takesFault_of_retire rfl (storeWord_of_outside heven hout _ r)⟩⟩

/-- Settles O26: of the shapes an Outcome can have, OutOfBounds needs the other policy. -/
theorem noOutOfBoundsUnderWrap : Obligations.NoOutOfBoundsUnderWrap := by
  unfold Obligations.NoOutOfBoundsUnderWrap
  intro i s t hwrap hi h
  obtain ⟨o, ho, hshape⟩ := exec_shape i s hi
  rw [ho, retire_next_iff] at h
  subst h
  cases hshape with
  | next | store | branch | jump => exact .inl rfl
  | misaligned a w => exact .inr ⟨a, s.pc, some w, rfl⟩
  | outOfBounds a w _ hp => cases hwrap.symm.trans hp

end Sys2Proof.Machine
end

section
/-! PROOFS of the ECALL family (48_sys.md) and of what every instruction changes and leaves (10_state.md, 40_cycle.md section 2,
60_exceptions.md section 2): one equation per way ECALL goes on, one inversion lemma per part of the state, and the
obligations read off them. -/

namespace Sys2Proof.Machine

/-! The service table and the replies (48_sys.md R251, R259). -/

section
variable {p : Params} {n : BitVec 10}

theorem serviceAt_svcExit (p : Params) : serviceAt p p.svcExit = some .programExit := by
  rw [serviceAt, if_pos rfl]

theorem serviceAt_svcPrintInt (hexit : n ≠ p.svcExit) (hprint : p.svcPrintInt = some n) :
    serviceAt p n = some .printInteger := by
  rw [serviceAt, if_neg hexit, if_pos hprint]

theorem serviceAt_of_other (hexit : n ≠ p.svcExit) (hprint : p.svcPrintInt ≠ some n) :
    serviceAt p n = lookupService p.svcTable n := by
  rw [serviceAt, if_neg hexit, if_neg hprint]

end

section
variable {n : BitVec 10}

theorem lookupService_cons_self (k : Service) (rest : List (BitVec 10 × Service)) :
    lookupService ((n, k) :: rest) n = some k := by
  rw [lookupService, if_pos rfl]

/-- Rows with another number do not count. -/
theorem lookupService_append {before : List (BitVec 10 × Service)} (h : ∀ e ∈ before, e.1 ≠ n)
    (after : List (BitVec 10 × Service)) : lookupService (before ++ after) n = lookupService after n := by
  induction before with
  | nil => rfl
  | cons e before ih =>
    obtain ⟨he, hrest⟩ := List.forall_mem_cons.1 h
    rw [List.cons_append, lookupService, if_neg he, ih hrest]

theorem lookupService_of_unlisted {table : List (BitVec 10 × Service)} (h : ∀ e ∈ table, e.1 ≠ n) :
    lookupService table n = none := by
  rw [← List.append_nil table, lookupService_append h]
  rfl

end

theorem serviceReply_svcExit (k : Service) (s : State) : serviceReply k s.params.svcExit s = .returns exitResult := by
  rw [serviceReply, if_pos rfl]

theorem afterCall_svcExit (s : State) : afterCall s.params.svcExit s = s := by
  rw [afterCall, if_pos rfl]

/-! Applying a result (R253 to R258). -/

section
variable {r : ServiceResult} {s : State} {m : Memory}

theorem applyReturn_of_value {v : Word} (hs : r.success = true) (hv : r.ret = some v) :
    applyReturn r s = { s with x := s.x.set .x6 v } := by
  rw [applyReturn, hs, hv]
  rfl

theorem applyReturn_of_no_value (h : r.success = false ∨ r.ret = none) : applyReturn r s = s := by
  unfold applyReturn
  split
  case h_1 hs hv => simp [hs, hv] at h
  case h_2 => rfl

theorem applyReturn_x_cases (r : ServiceResult) (s : State) :
    (applyReturn r s).x = s.x ∨
    ∃ v, r.success = true ∧ r.ret = some v ∧ (applyReturn r s).x = s.x.set .x6 v := by
  cases hs : r.success with
  | false => exact .inl (by rw [applyReturn_of_no_value (.inl hs)])
  | true =>
    cases hv : r.ret with
    | none => exact .inl (by rw [applyReturn_of_no_value (.inr hv)])
    | some v => exact .inr ⟨v, rfl, rfl, by rw [applyReturn_of_value hs hv]⟩

theorem applyResult_of_accessFault {e : MemFault} (hrun : runAccesses s.mem r.accesses = (m, some e)) (svc : BitVec 10)
    (w : Word) : applyResult svc w r s = takeFault (e.raised s.pc (some w)) { s with mem := m } := by
  rw [applyResult, hrun]

variable (hrun : runAccesses s.mem r.accesses = (m, none)) (svc : BitVec 10) (w : Word)
include hrun

theorem applyResult_of_exit (hhalt : r.halt = true) (hs : r.success = true) :
    applyResult svc w r s = { applyReturn r { s with mem := m } with halted := true, stop := .exit svc } := by
  simp [applyResult, hrun, hhalt, hs]

theorem applyResult_of_serviceError (hhalt : r.halt = true) (hs : r.success = false) :
    applyResult svc w r s = takeFault (.serviceError svc r.diag s.pc) s := by
  simp [applyResult, hrun, hhalt, hs]

theorem applyResult_of_advance (hhalt : r.halt = false) :
    applyResult svc w r s = setPC (applyReturn r { s with mem := m }) s.pcNext := by
  simp [applyResult, hrun, hhalt]

end

/-- ECALL with a listed number whose service returns applies the result (R253). -/
theorem exec_ecall_of_returns {s : State} {svc : BitVec 10} {k : Service} {r : ServiceResult}
    (hk : serviceAt s.params svc = some k) (hr : serviceReply k svc s = .returns r) :
    exec (.ecall svc) s = .next (applyResult svc (encode (.ecall svc)) r (afterCall svc s)) := by
  rw [exec_ecall, execEcall, hk]
  dsimp only
  rw [hr]

/-- Settles O54: program exit has no access and no value, so the halt is all that its result leaves; the table is asked row
by row. -/
theorem programExitEndsTheRun : Obligations.ProgramExitEndsTheRun := by
  unfold Obligations.ProgramExitEndsTheRun
  refine ⟨fun s => ?_, fun p => ⟨serviceAt_svcExit p, fun n => serviceAt_svcPrintInt, ?_, ?_⟩, rfl, rfl⟩
  · rw [exec_ecall_of_returns (serviceAt_svcExit s.params) (serviceReply_svcExit _ s), afterCall_svcExit]
    rfl
  · intro n k before after hexit hprint htable hbefore
    rw [serviceAt_of_other hexit hprint, htable, lookupService_append hbefore, lookupService_cons_self]
  · intro n hexit hprint htable
    rw [serviceAt_of_other hexit hprint, lookupService_of_unlisted htable]

/-- Settles O57: with a listed number ECALL asks the host, and only a reply has a next state. -/
theorem neverReturningServiceIsStuck : Obligations.NeverReturningServiceIsStuck := by
  unfold Obligations.NeverReturningServiceIsStuck
  intro s svc k hk
  cases hr : serviceReply k svc s with
  | neverReturns => exact iff_of_true rfl (by simp [execEcall, hk, hr])
  | returns r =>
    rw [exec_ecall_of_returns hk hr]
    exact iff_of_false nofun nofun

/-- Settles O55: ServiceError, the exit and the advance; the return value is in the last two alone. -/
theorem ecallAppliesTheResult : Obligations.EcallAppliesTheResult := by
  unfold Obligations.EcallAppliesTheResult
  refine ⟨unknownServiceTakesUnknownSyscall, fun s svc k r m hk hr hrun => ⟨_, exec_ecall_of_returns hk hr, ?_⟩⟩
  rw [← afterCall_mem s svc] at hrun
  have hvalue : ∀ v, r.success = true → r.ret = some v →
      (applyReturn r { afterCall svc s with mem := m }).x = s.x.set .x6 v := by
    intro v hs hv
    rw [applyReturn_of_value hs hv, afterCall_x]
  have hnone : r.success = false ∨ r.ret = none → (applyReturn r { afterCall svc s with mem := m }).x = s.x := by
    intro h
    rw [applyReturn_of_no_value h, afterCall_x]
  cases hhalt : r.halt with
  | false =>
    rw [applyResult_of_advance hrun svc _ hhalt]
    exact ⟨by simp, fun _ => by simp, nofun, hvalue, hnone, nofun, fun _ => by simp [State.pcNext]⟩
  | true =>
    cases hs : r.success with
    | false =>
      rw [applyResult_of_serviceError hrun svc _ hhalt hs]
      exact ⟨by simp, by simp, fun _ _ => by simp, nofun, fun _ => by simp, fun _ => by simp, nofun⟩
    | true =>
      rw [applyResult_of_exit hrun svc _ hhalt hs]
      rw [hs] at hvalue hnone
      exact ⟨by simp, fun _ => by simp, nofun, hvalue, hnone, fun _ => by simp, nofun⟩

/-! A service's accesses in order (R258; log 7). -/

section
variable {m n : Memory} {x : ServiceAccess}

theorem runAccesses_cons_of_ok (h : runAccess m x = .ok n) (after : List ServiceAccess) :
    runAccesses m (x :: after) = runAccesses n after := by
  rw [runAccesses, h]

theorem runAccesses_cons_of_error {e : MemFault} (h : runAccess m x = .error e) (after : List ServiceAccess) :
    runAccesses m (x :: after) = (m, some e) := by
  rw [runAccesses, h]

theorem runAccesses_append {before : List ServiceAccess} (h : runAccesses m before = (n, none))
    (after : List ServiceAccess) : runAccesses m (before ++ after) = runAccesses n after := by
  induction before generalizing m with
  | nil =>
    cases h
    rfl
  | cons x before ih =>
    rw [List.cons_append]
    cases hx : runAccess m x with
    | ok m' =>
      rw [runAccesses_cons_of_ok hx] at h ⊢
      exact ih h
    | error e =>
      rw [runAccesses_cons_of_error hx] at h
      cases h

end

/-- Settles O60: each access is one call of the port, and the accesses that succeed are passed over in order. -/
theorem servicesUseTheMemoryPort : Obligations.ServicesUseTheMemoryPort := by
  unfold Obligations.ServicesUseTheMemoryPort
  refine ⟨fun m a => ⟨fun b h => ?_, fun e h => ?_, fun v h => ?_, fun e h => ?_, fun _ => rfl, fun _ => rfl⟩,
    fun _ => rfl, fun m n x before after hrun => ⟨runAccesses_append hrun after, fun n' h => ?_, fun e h => ?_⟩⟩
  · rw [runAccess, h]
  · rw [runAccess, h]
  · rw [runAccess, h]
  · rw [runAccess, h]
  · rw [runAccesses_append hrun, runAccesses_cons_of_ok h]
  · rw [runAccesses_append hrun, runAccesses_cons_of_error h]

/-- Settles O56: the accesses stop at the one that fails, and the fault is taken on the memory they left. -/
theorem serviceFaultKeepsEarlierWrites : Obligations.ServiceFaultKeepsEarlierWrites := by
  unfold Obligations.ServiceFaultKeepsEarlierWrites
  intro s svc k r before after bad m e hk hr haccesses hrun hbad
  have hfail : runAccesses (afterCall svc s).mem r.accesses = (m, some e) := by
    rw [afterCall_mem, haccesses, runAccesses_append hrun, runAccesses_cons_of_error hbad]
  refine ⟨_, exec_ecall_of_returns hk hr, ?_⟩
  rw [applyResult_of_accessFault hfail, afterCall_pc]
  refine ⟨rfl, afterCall_x s svc, rfl, afterCall_params s svc, rfl, ?_, ?_⟩
  · rintro a rfl
    rfl
  · rintro a rfl
    rfl

end Sys2Proof.Machine
end

section
/-! PROOFS of what every instruction and every step changes and leaves (10_state.md, 20_memory.md section 6, 40_cycle.md
section 2, 60_exceptions.md section 2): `exec_shape` gives the Outcome of an engine instruction and `execEcall_cases` that
of ECALL; each part of the state is read off them once. -/

namespace Sys2Proof.Machine

section
variable {i : Instr} {s t : State} {o : EngineOutcome} {svc : BitVec 10}

/-! The ways an instruction and a step have a next state. -/

/-- An instruction retires an Outcome of its shape, is an ECALL of an unlisted service, or an ECALL that applies a result. -/
theorem exec_next_cases (h : exec i s = .next t) :
    (∃ o, isEcall i = false ∧ Shape i s o ∧ t = pcSequencer o s) ∨
    (∃ svc, i = .ecall svc ∧ t = takeFault (.unknownSyscall svc s.pc) s) ∨
    (∃ svc k r, i = .ecall svc ∧ serviceAt s.params svc = some k ∧ serviceReply k svc s = .returns r ∧
      t = applyResult svc (encode (.ecall svc)) r (afterCall svc s)) := by
  cases hi : isEcall i with
  | false =>
    obtain ⟨o, ho, hshape⟩ := exec_shape i s hi
    rw [ho, retire_next_iff] at h
    exact .inl ⟨o, rfl, hshape, h.symm⟩
  | true =>
    cases i with
    | ecall svc =>
      rw [exec_ecall] at h
      rcases execEcall_cases svc s with ⟨_, he⟩ | ⟨_, _, _, he⟩ | ⟨k, r, hk, hr, he⟩ <;> rw [he] at h <;> cases h
      · exact .inr (.inl ⟨svc, rfl, rfl⟩)
      · exact .inr (.inr ⟨svc, k, r, rfl, hk, hr, rfl⟩)
    | _ => cases hi

/-- A step with a next state ends the run at the image's end, takes a fault of its own, or is the decoded instruction's. -/
theorem step_next_cases (h : step s = .next t) :
    t = stopAtImageEnd s ∨ (∃ f, t = takeFault f s) ∨ ∃ i, decode (wordAtPc s) = .instr i ∧ exec i s = .next t := by
  rcases step_cases s with ⟨_, hs⟩ | ⟨_, _, hs⟩ | ⟨_, _, _, hs⟩ | ⟨_, _, _, hs⟩ | ⟨i, _, hd, hs⟩ <;> rw [hs] at h
  · cases h
  · exact .inl (Host.Outcome.next.inj h).symm
  · exact .inr (.inl ⟨_, (Host.Outcome.next.inj h).symm⟩)
  · exact .inr (.inl ⟨_, (Host.Outcome.next.inj h).symm⟩)
  · exact .inr (.inr ⟨i, hd, h⟩)

/-! Registers. -/

theorem pcSequencer_x_of_shape (h : Shape i s o) :
    (pcSequencer o s).x = s.x ∨ ∃ r ∈ destinations i, ∃ v, (pcSequencer o s).x = s.x.set r v := by
  cases h with
  | next reg hr | jump reg _ hr =>
    cases reg with
    | none => exact .inl rfl
    | some p => exact .inr ⟨p.1, hr p rfl, p.2, rfl⟩
  | store | branch | misaligned | outOfBounds => exact .inl rfl

/-- A result writes a0 with its value, and only with success (R254). -/
theorem applyResult_x_cases (svc : BitVec 10) (w : Word) (r : ServiceResult) (s : State) :
    (applyResult svc w r s).x = s.x ∨
    ∃ v, r.success = true ∧ r.ret = some v ∧ (applyResult svc w r s).x = s.x.set .x6 v := by
  rcases applyResult_cases svc w r s with ⟨_, _, _, h⟩ | ⟨m, _, _, _, h⟩ | ⟨_, _, _, _, h⟩ | ⟨m, _, _, h⟩ <;> rw [h]
  · exact .inl rfl
  · exact applyReturn_x_cases r { s with mem := m }
  · exact .inl rfl
  · exact applyReturn_x_cases r { s with mem := m }

theorem exec_x_cases (h : exec i s = .next t) : t.x = s.x ∨ ∃ r ∈ destinations i, ∃ v, t.x = s.x.set r v := by
  rcases exec_next_cases h with ⟨o, _, hshape, rfl⟩ | ⟨svc, _, rfl⟩ | ⟨svc, k, r, rfl, _, _, rfl⟩
  · exact pcSequencer_x_of_shape hshape
  · exact .inl rfl
  · rcases applyResult_x_cases svc (encode (.ecall svc)) r (afterCall svc s) with hx | ⟨v, _, _, hx⟩
    · exact .inl (hx.trans (afterCall_x s svc))
    · exact .inr ⟨.x6, by simp [destinations], v, by rw [hx, afterCall_x]⟩

/-! The PC, the halt flag and the stop reason. -/

theorem applyResult_outcome (svc : BitVec 10) (w : Word) (r : ServiceResult) (s : State) :
    ((applyResult svc w r s).pc = s.pcNext ∧ (applyResult svc w r s).halted = s.halted ∧
      (applyResult svc w r s).stop = s.stop) ∨
    ((applyResult svc w r s).pc = s.pc ∧ (applyResult svc w r s).halted = true ∧
      (applyResult svc w r s).stop ≠ .none) := by
  rcases applyResult_cases svc w r s with ⟨_, _, _, h⟩ | ⟨_, _, _, _, h⟩ | ⟨_, _, _, _, h⟩ | ⟨_, _, _, h⟩ <;> rw [h]
  · exact .inr ⟨rfl, rfl, nofun⟩
  · exact .inr ⟨applyReturn_pc .., rfl, nofun⟩
  · exact .inr ⟨rfl, rfl, nofun⟩
  · exact .inl ⟨rfl, applyReturn_halted .., applyReturn_stop ..⟩

/-- ECALL advances, or halts where it is (R255 to R258). -/
theorem exec_ecall_outcome (h : exec (.ecall svc) s = .next t) :
    (t.pc = s.pcNext ∧ t.halted = s.halted ∧ t.stop = s.stop) ∨ (t.pc = s.pc ∧ t.halted = true ∧ t.stop ≠ .none) := by
  rcases exec_next_cases h with ⟨o, hi, _⟩ | ⟨n, _, rfl⟩ | ⟨n, k, r, _, _, _, rfl⟩
  · cases hi
  · exact .inr ⟨rfl, rfl, nofun⟩
  · have hresult := applyResult_outcome n (encode (.ecall n)) r (afterCall n s)
    rwa [afterCall_pcNext, afterCall_pc, afterCall_halted, afterCall_stop] at hresult

/-- An instruction leaves the halt flag and the stop reason, or halts with a reason. -/
theorem exec_halt_cases (h : exec i s = .next t) :
    (t.halted = s.halted ∧ t.stop = s.stop) ∨ (t.halted = true ∧ t.stop ≠ .none) := by
  rcases exec_next_cases h with ⟨o, _, hshape, rfl⟩ | ⟨svc, _, rfl⟩ | ⟨svc, k, r, rfl, _⟩
  · cases hshape with
    | next | store | branch | jump => exact .inl ⟨rfl, rfl⟩
    | misaligned | outOfBounds => exact .inr ⟨rfl, nofun⟩
  · exact .inr ⟨rfl, nofun⟩
  · rcases exec_ecall_outcome h with ⟨_, hgo⟩ | ⟨_, hhalt⟩
    · exact .inl hgo
    · exact .inr hhalt

/-! The parameters, which nothing writes (log 1). -/

theorem pcSequencer_params (o : EngineOutcome) (s : State) : (pcSequencer o s).params = s.params := by
  cases o <;> rfl

theorem applyResult_params (svc : BitVec 10) (w : Word) (r : ServiceResult) (s : State) :
    (applyResult svc w r s).params = s.params := by
  rcases applyResult_cases svc w r s with ⟨_, _, _, h⟩ | ⟨_, _, _, _, h⟩ | ⟨_, _, _, _, h⟩ | ⟨_, _, _, h⟩ <;> rw [h]
  · rfl
  · exact applyReturn_params ..
  · rfl
  · exact applyReturn_params ..

theorem exec_params (h : exec i s = .next t) : t.params = s.params := by
  rcases exec_next_cases h with ⟨o, _, _, rfl⟩ | ⟨svc, _, rfl⟩ | ⟨svc, k, r, _, _, _, rfl⟩
  · exact pcSequencer_params o s
  · rfl
  · rw [applyResult_params, afterCall_params]

/-! Memory: what a result leaves is what its accesses left, or, undone, what stood before (60_exceptions.md R279). -/

theorem applyResult_mem_cases (svc : BitVec 10) (w : Word) (r : ServiceResult) (s : State) :
    (applyResult svc w r s).mem = s.mem ∨ (applyResult svc w r s).mem = (runAccesses s.mem r.accesses).1 := by
  rcases applyResult_cases svc w r s with ⟨m, _, hrun, h⟩ | ⟨m, hrun, _, _, h⟩ | ⟨_, _, _, _, h⟩ | ⟨m, hrun, _, h⟩ <;>
    rw [h]
  · exact .inr (by rw [hrun]; rfl)
  · exact .inr (by rw [hrun]; exact applyReturn_mem ..)
  · exact .inl rfl
  · exact .inr (by rw [hrun]; exact applyReturn_mem ..)

/-- Every instruction keeps memory canonical. -/
theorem exec_wf (hwf : s.mem.wf = true) (h : exec i s = .next t) : t.mem.wf = true := by
  rcases exec_next_cases h with ⟨o, _, hshape, rfl⟩ | ⟨svc, _, rfl⟩ | ⟨svc, k, r, _, _, _, rfl⟩
  · cases hshape with
    | store m _ _ hw => exact hw hwf
    | next | branch | jump | misaligned | outOfBounds => exact hwf
  · exact hwf
  · have hafter : (afterCall svc s).mem.wf = true := by rwa [afterCall_mem]
    rcases applyResult_mem_cases svc (encode (.ecall svc)) r (afterCall svc s) with hm | hm <;> rw [hm]
    · exact hafter
    · exact wf_runAccesses hafter r.accesses

end

/-! The register file. -/

/-- Settles O33: the laws of the register file, and the two forms whose Outcome writes no register. -/
theorem noRegisterIsHardwired : Obligations.NoRegisterIsHardwired := by
  unfold Obligations.NoRegisterIsHardwired
  refine ⟨fun x r q v => ⟨get_set_self x r v, get_set_of_ne x r q v⟩, regs_ext, fun s t imm h => ?_⟩
  rcases h with h | h <;> cases h <;> rfl

/-- Settles O35: `exec_x_cases`, and for ECALL the one case in which a result writes. -/
theorem onlyNamedDestinationsChange : Obligations.OnlyNamedDestinationsChange := by
  unfold Obligations.OnlyNamedDestinationsChange
  refine ⟨fun i s t q h hq => ?_, fun i s t h hnone => ?_, fun svc k r s t hk hr h hne => ?_⟩
  · rcases exec_x_cases h with hx | ⟨r, hr, v, hx⟩ <;> rw [hx]
    exact get_set_of_ne _ _ _ _ (by rintro rfl; exact hq hr)
  · rcases exec_x_cases h with hx | ⟨r, hr, _⟩
    · exact hx
    · rw [hnone] at hr
      cases hr
  · rw [exec_ecall_of_returns hk hr] at h
    cases h
    rcases applyResult_x_cases svc (encode (.ecall svc)) r (afterCall svc s) with hx | ⟨v, hs, hv, hx⟩
    · exact absurd (hx.trans (afterCall_x s svc)) hne
    · exact ⟨hs, v, hv, by rw [hx, afterCall_x]⟩

/-! The whole machine. -/

/-- Settles O36: of the shapes only `store` gives a memory, and ECALL may write it. -/
theorem onlyStoresAndServicesWriteMemory : Obligations.OnlyStoresAndServicesWriteMemory := by
  unfold Obligations.OnlyStoresAndServicesWriteMemory
  intro i s t h hi
  have hmem : t.mem = s.mem := by
    rcases exec_next_cases h with ⟨o, _, hshape, rfl⟩ | ⟨svc, rfl, _⟩ | ⟨svc, _, _, rfl, _⟩
    · cases hshape with
      | store m hm => cases hi.symm.trans hm
      | next | branch | jump | misaligned | outOfBounds => rfl
    · cases hi
    · cases hi
  exact ⟨hmem, fun a => by rw [hmem]⟩

/-- Settles O37: `retire` always answers a next state. -/
theorem everyEngineInstructionAnswersNext : Obligations.EveryEngineInstructionAnswersNext := by
  unfold Obligations.EveryEngineInstructionAnswersNext
  intro i s hi
  obtain ⟨o, ho, _⟩ := exec_shape i s hi
  exact ⟨pcSequencer o s, ho⟩

/-- Settles O38: each shape fixes its row of the table, and ECALL advances or halts where it is. -/
theorem outcomesFollowTheTable : Obligations.OutcomesFollowTheTable := by
  unfold Obligations.OutcomesFollowTheTable
  refine ⟨fun i s t h => ?_, fun w s => engineUnknown_eq w s⟩
  cases hi : isEcall i with
  | true =>
    cases i with
    | ecall svc =>
      refine ⟨nofun, nofun, by simp [outcomeClass], fun _ => ?_⟩
      rcases exec_ecall_outcome h with hgo | ⟨hpc, hhalted, _⟩
      · exact .inl hgo
      · exact .inr ⟨hpc, hhalted⟩
    | _ => cases hi
  | false =>
    obtain ⟨o, ho, hshape⟩ := exec_shape i s hi
    rw [ho, retire_next_iff] at h
    subst h
    cases hshape with
    | next | store =>
      exact ⟨fun _ => ⟨rfl, rfl, rfl⟩, fun _ => .inl ⟨rfl, rfl, rfl⟩, fun _ => ⟨rfl, rfl⟩, fun _ => .inl ⟨rfl, rfl, rfl⟩⟩
    | branch _ hc | jump _ _ _ hc =>
      rw [hc]
      exact ⟨nofun, nofun, fun _ => ⟨rfl, rfl⟩, nofun⟩
    | misaligned a w hc =>
      rw [hc]
      exact ⟨nofun, fun _ => .inr (.inl ⟨rfl, rfl, a, s.pc, some w, rfl⟩), by simp, nofun⟩
    | outOfBounds a w hc hp =>
      rw [hc]
      exact ⟨nofun, fun _ => .inr (.inr ⟨rfl, rfl, hp, a, s.pc, some w, rfl⟩), by simp, nofun⟩

/-! Faults. -/

section
variable {i : Instr} {s t : State} {f : CoreFault} {svc : BitVec 10}

/-- An engine instruction has at most one access, and its fault is found before anything is written (D17). -/
theorem eq_takeFault_of_exec (hi : isEcall i = false) (hstop : s.stop = .none) (h : exec i s = .next t)
    (hf : t.stop = .fault f) : t = takeFault f s := by
  obtain ⟨o, ho, hshape⟩ := exec_shape i s hi
  rw [ho, retire_next_iff] at h
  subst h
  cases hshape with
  | next | store | branch | jump => cases hstop.symm.trans hf
  | misaligned | outOfBounds =>
    cases hf
    rfl

/-- ECALL's faults: only a failed access of the service can come after a write to memory (D31). -/
theorem exec_ecall_fault (hstop : s.stop = .none) (h : exec (.ecall svc) s = .next t) (hf : t.stop = .fault f) :
    t.halted = true ∧ t.x = s.x ∧ t.pc = s.pc ∧ t.params = s.params ∧
      (t.mem = s.mem ∨ ∃ (e : MemFault) (w : Word), f = e.raised s.pc (some w)) := by
  have hparams := exec_params h
  rcases exec_next_cases h with ⟨_, hi, _⟩ | ⟨n, _, rfl⟩ | ⟨n, k, r, hn, _, _, rfl⟩
  · cases hi
  · exact ⟨rfl, rfl, rfl, rfl, .inl rfl⟩
  · rcases applyResult_cases n (encode (.ecall n)) r (afterCall n s) with
      ⟨m, e, _, he⟩ | ⟨_, _, _, _, he⟩ | ⟨_, _, _, _, he⟩ | ⟨_, _, _, he⟩ <;> rw [he] at hf hparams ⊢
    · cases hf
      exact ⟨rfl, afterCall_x s n, afterCall_pc s n, hparams, .inr ⟨e, _, by rw [afterCall_pc]⟩⟩
    · cases hf
    · exact ⟨rfl, afterCall_x s n, afterCall_pc s n, hparams, .inl (afterCall_mem s n)⟩
    · rw [setPC_stop, applyReturn_stop] at hf
      cases ((afterCall_stop s n).trans hstop).symm.trans hf

/-- A failed access is OutOfBounds or Misaligned, with its address (20_memory.md R56). -/
theorem raised_cases (e : MemFault) (pc : Word) (word : Option Word) :
    ∃ (a : Int) (w : Option Word), e.raised pc word = .outOfBounds a pc w ∨ e.raised pc word = .misaligned a pc w := by
  cases e with
  | outOfBounds a => exact ⟨a, word, .inl rfl⟩
  | misaligned a => exact ⟨a, word, .inr rfl⟩

/-- A step that ends in a fault is fault entry on the state it began with, or an ECALL. -/
theorem step_fault_cases (hstop : s.stop = .none) (h : step s = .next t) (hf : t.stop = .fault f) :
    t = takeFault f s ∨ ∃ svc, decode (wordAtPc s) = .instr (.ecall svc) ∧ exec (.ecall svc) s = .next t := by
  rcases step_next_cases h with rfl | ⟨g, rfl⟩ | ⟨i, hd, he⟩
  · cases hf
  · cases hf
    exact .inl rfl
  · cases hi : isEcall i with
    | false => exact .inl (eq_takeFault_of_exec hi hstop he hf)
    | true =>
      cases i with
      | ecall svc => exact .inr ⟨svc, hd, he⟩
      | _ => cases hi

end

/-- Settles O39: fault entry keeps all that the statement names, and `exec_ecall_fault` bounds what an ECALL's fault may
leave written. -/
theorem faultsArePrecise : Obligations.FaultsArePrecise := by
  unfold Obligations.FaultsArePrecise
  intro s t f hstop h hf
  rcases step_fault_cases hstop h hf with rfl | ⟨svc, hd, he⟩
  · exact ⟨rfl, rfl, rfl, rfl, .inl rfl, fun _ => rfl⟩
  · obtain ⟨hhalted, hx, hpc, hparams, hmem⟩ := exec_ecall_fault hstop he hf
    refine ⟨hhalted, hx, hpc, hparams, ?_, fun hno => absurd hd (hno svc)⟩
    rcases hmem with hmem | ⟨e, w, rfl⟩
    · exact .inl hmem
    · exact .inr ⟨⟨svc, hd⟩, raised_cases e s.pc (some w)⟩

/-! The parity of the PC. -/

section
variable {s : State} (h : s.pc.toNat % 2 = 0)
include h

theorem pcNext_even : s.pcNext.toNat % 2 = 0 := by
  rw [State.pcNext, BitVec.toNat_add, BitVec.toNat_ofNat]
  omega

theorem pcNext_add_immB_even (imm : BitVec 4) : (s.pcNext + immB imm).toNat % 2 = 0 := by
  rw [pcNext_add_immB, branchDest, if_pos rfl]
  exact toNat_ofInt_even (by omega)

theorem pcNext_add_immJ_even (imm : BitVec 9) : (s.pcNext + immJ imm).toNat % 2 = 0 := by
  rw [pcNext_add_immJ]
  exact toNat_ofInt_even (by omega)

end

/-- Settles O40: every other target is the PC itself or lies an even offset from it. -/
theorem onlyRegisterJumpsMakeThePcOdd : Obligations.OnlyRegisterJumpsMakeThePcOdd := by
  unfold Obligations.OnlyRegisterJumpsMakeThePcOdd
  intro i s t h hi heven
  rcases exec_next_cases h with ⟨o, _, hshape, rfl⟩ | ⟨svc, _, rfl⟩ | ⟨svc, _, _, rfl, _⟩
  · cases hshape with
    | next | store => exact pcNext_even heven
    | branch imm => exact pcNext_add_immB_even heven imm
    | jump _ _ _ _ ht =>
      obtain ⟨imm, rfl⟩ := ht hi
      exact pcNext_add_immJ_even heven imm
    | misaligned | outOfBounds => exact heven
  · exact heven
  · rcases exec_ecall_outcome h with ⟨hpc, _⟩ | ⟨hpc, _⟩ <;> rw [hpc]
    · exact pcNext_even heven
    · exact heven

/-- Settles O41: fault entry and the image's end write no parameter, and neither does an instruction. -/
theorem stepKeepsParameters : Obligations.StepKeepsParameters := by
  unfold Obligations.StepKeepsParameters
  intro s t h
  rcases step_next_cases h with rfl | ⟨f, rfl⟩ | ⟨i, _, he⟩
  · rfl
  · rfl
  · exact exec_params he

/-! The end of the image. -/

theorem atImageEnd_iff (s : State) :
    atImageEnd s = true ↔ s.params.endOfImageStop = true ∧ s.params.imageLen ≤ s.pc.toNat := by
  simp [atImageEnd]

/-- The check comes before the fetch (40_cycle.md R121). -/
theorem step_of_atImageEnd {s : State} (hh : s.halted = false) (hend : atImageEnd s = true) :
    step s = .next (stopAtImageEnd s) := by
  simp [step, hh, hend]

/-- No instruction records the image's end. -/
theorem execStop_ne_endOfProgram {i : Instr} {s : State} {r : Stop} (hstop : s.stop = .none) (h : ExecStop i s r)
    (pc : Word) : r ≠ .endOfProgram pc := by
  cases h with
  | kept => rw [hstop]; exact nofun
  | access | unknownSyscall | exit | serviceError => exact nofun

/-- Settles O45: the check is `atImageEnd`, and of the stop reasons of a step only the check gives EndOfProgram. -/
theorem endOfImageEndsTheRun : Obligations.EndOfImageEndsTheRun := by
  unfold Obligations.EndOfImageEndsTheRun
  refine fun s hh => ⟨fun hparam hlen => step_of_atImageEnd hh ((atImageEnd_iff s).2 ⟨hparam, hlen⟩),
    fun t hno hstop h pc => ?_⟩
  rcases step_stop_cases h with ⟨hend, _⟩ | ht | ht | ⟨i, _, ht⟩
  · obtain ⟨hparam, hlen⟩ := (atImageEnd_iff s).1 hend
    rcases hno with hno | hno
    · cases hno.symm.trans hparam
    · omega
  · rw [ht]; exact nofun
  · rw [ht]; exact nofun
  · exact execStop_ne_endOfProgram hstop ht pc

end Sys2Proof.Machine
end

section
/-! PROOFS of the invariant, of reset and boot (70_reset_and_hazards.md) and of the driver's loop (40_cycle.md section 2). -/

namespace Sys2Proof.Machine

/-! The invariant: canonical memory, and a stop reason exactly in a halted CORE. -/

theorem inv_iff (s : State) : s.inv = true ↔ s.mem.wf = true ∧ (s.halted = true ↔ s.stop ≠ .none) := by
  rw [State.inv, Bool.and_eq_true, beq_iff_eq, Bool.eq_iff_iff (a := s.halted), bne_iff_ne]

section
variable {s t : State}

theorem step_wf (hwf : s.mem.wf = true) (h : step s = .next t) : t.mem.wf = true := by
  rcases step_next_cases h with rfl | ⟨f, rfl⟩ | ⟨i, _, he⟩
  · exact hwf
  · exact hwf
  · exact exec_wf hwf he

/-- A step leaves the halt flag and the stop reason, or halts with a reason. -/
theorem step_halt_cases (h : step s = .next t) :
    (t.halted = s.halted ∧ t.stop = s.stop) ∨ (t.halted = true ∧ t.stop ≠ .none) := by
  rcases step_next_cases h with rfl | ⟨f, rfl⟩ | ⟨i, _, he⟩
  · exact .inr ⟨rfl, nofun⟩
  · exact .inr ⟨rfl, nofun⟩
  · exact exec_halt_cases he

end

/-- Settles O47: the two parts of the invariant, each by its own inversion of the step. -/
theorem stepKeepsInvariant : Obligations.StepKeepsInvariant := by
  unfold Obligations.StepKeepsInvariant
  intro s t hinv h
  obtain ⟨hwf, hreason⟩ := (inv_iff s).1 hinv
  refine (inv_iff t).2 ⟨step_wf hwf h, ?_⟩
  rcases step_halt_cases h with ⟨hhalted, hstop⟩ | ⟨hhalted, hstop⟩
  · rw [hhalted, hstop]
    exact hreason
  · exact iff_of_true hhalted hstop

/-! Reset. -/

theorem inv_resetWith (p : Params) : (State.resetWith p).inv = true :=
  (inv_iff _).2 ⟨wf_reset, iff_of_false nofun (fun h => h rfl)⟩

/-- Settles O48: reset's memory is empty, and it is not halted. -/
theorem resetMeetsInvariant : Obligations.ResetMeetsInvariant := by
  unfold Obligations.ResetMeetsInvariant
  exact ⟨inv_resetWith defaultParams, inv_resetWith⟩

/-- Settles O50: the reset values, field by field. -/
theorem resetState : Obligations.ResetState := by
  unfold Obligations.ResetState
  intro p
  refine ⟨fun r hr => ?_, ?_, resetWith_pc p, fun a => ?_, resetWith_halted p, resetWith_stop p, resetWith_params p, rfl⟩
  · rw [resetWith_x, get_reset, if_neg hr]
  · rw [resetWith_x, get_reset, if_pos rfl]
  · rw [resetWith_mem, byte_reset]

/-! The image load (R304). -/

theorem wf_loadWords {m : Memory} (h : m.wf = true) {a : Nat} {ws : List Word} (hfit : a + 2 * ws.length ≤ 65536) :
    (loadWords m a ws).wf = true := by
  induction ws generalizing m a with
  | nil => exact h
  | cons w ws ih =>
    rw [List.length_cons] at hfit
    exact ih (wf_setWord h (by omega) w) (by omega)

/-- The load writes no byte outside the image. -/
theorem byte_loadWords_of_outside {m : Memory} (h : m.wf = true) {a c : Nat} {ws : List Word}
    (hfit : a + 2 * ws.length ≤ 65536) (hc : c < a ∨ a + 2 * ws.length ≤ c) :
    (loadWords m a ws).byte c = m.byte c := by
  induction ws generalizing m a with
  | nil => rfl
  | cons w ws ih =>
    rw [List.length_cons] at hfit hc
    have ha : a + 1 < 65536 := by omega
    rw [loadWords, ih (wf_setWord h ha w) (by omega) (by omega), byte_setWord_of_ne h ha w (by omega) (by omega)]

/-- Word `k` of the image lies at its address, low byte first. -/
theorem byte_loadWords {m : Memory} (h : m.wf = true) {a k : Nat} {w : Word} {ws : List Word}
    (hfit : a + 2 * ws.length ≤ 65536) (hk : ws[k]? = some w) :
    (loadWords m a ws).byte (a + 2 * k) = lowByte w ∧ (loadWords m a ws).byte (a + 2 * k + 1) = highByte w := by
  induction ws generalizing m a k with
  | nil => cases hk
  | cons v ws ih =>
    rw [List.length_cons] at hfit
    have ha : a + 1 < 65536 := by omega
    have hwf := wf_setWord h ha v
    rw [loadWords]
    cases k with
    | zero =>
      cases hk
      rw [byte_loadWords_of_outside hwf (by omega) (by omega), byte_loadWords_of_outside hwf (by omega) (by omega)]
      exact ⟨byte_setWord_low h ha w, byte_setWord_high h ha w⟩
    | succ k =>
      have hshift : a + 2 * (k + 1) = a + 2 + 2 * k := by omega
      rw [hshift]
      exact ih hwf (by omega) hk

/-! Boot (R305). -/

section
variable {image : List Word} (p : Params) (host : List ServiceReply)

theorem boot_of_too_long (h : 32768 < image.length) : boot p host image = .refused (.imageTooLong image.length) := by
  rw [boot, if_pos (show image.length > maxImageWords from h)]

theorem boot_of_fits (h : image.length ≤ 32768) :
    boot p host image = .next { State.resetWith { p with imageLen := 2 * image.length } with
      mem := loadWords Memory.reset 0 image
      replies := host } := by
  rw [boot, if_neg (Nat.not_lt.2 (show image.length ≤ maxImageWords from h))]

end

/-- Settles O49: an image that boots fits the space, so its load keeps memory canonical. -/
theorem bootMeetsInvariant : Obligations.BootMeetsInvariant := by
  unfold Obligations.BootMeetsInvariant
  intro p host image s h
  rcases Nat.lt_or_ge 32768 image.length with hlong | hfits
  · rw [boot_of_too_long p host hlong] at h
    cases h
  · rw [boot_of_fits p host hfits] at h
    cases h
    exact (inv_iff _).2 ⟨wf_loadWords wf_reset (by omega), iff_of_false nofun (fun h => h rfl)⟩

/-- Settles O51: the load's bytes and its frame, from the blank memory of reset. -/
theorem bootLoadsTheImage : Obligations.BootLoadsTheImage := by
  unfold Obligations.BootLoadsTheImage
  intro p host image
  refine ⟨boot_of_too_long p host, fun hfits => ⟨_, boot_of_fits p host hfits, rfl, rfl, rfl, rfl, rfl, ?_, ?_⟩⟩
  · intro k w hk
    obtain ⟨hlow, hhigh⟩ := byte_loadWords wf_reset (a := 0) (by omega) hk
    rw [Nat.zero_add] at hlow hhigh
    exact ⟨by rw [hlow, toNat_lowByte], by rw [hhigh, toNat_highByte]⟩
  · intro a ha
    exact byte_loadWords_of_outside wf_reset (by omega) (.inr (by omega))

/-! The driver's loop. -/

theorem drive_of_halted {s : State} (h : s.halted = true) (fuel : Nat) : drive fuel s = .ended s := by
  cases fuel <;> simp [drive, h]

/-! One turn of the loop in a state that is not halted. -/

section
variable {s : State} (hh : ¬ s.halted = true) (fuel : Nat)
include hh

theorem drive_succ_of_next {t : State} (hs : step s = .next t) : drive (fuel + 1) s = drive fuel t := by
  rw [drive, if_neg hh, hs]

theorem drive_succ_of_fault {why : Fault} (hs : step s = .fault why) : drive (fuel + 1) s = .stuck why s := by
  rw [drive, if_neg hh, hs]

theorem drive_succ_of_refused {why : Refusal} (hs : step s = .refused why) :
    drive (fuel + 1) s = .refused why s := by
  rw [drive, if_neg hh, hs]

end

/-- What the loop's result says of the halt flag: it ends at a halted state only, and the cap stops it at none. -/
def DriveResult.flagOk : DriveResult → Prop
  | .ended t => t.halted = true
  | .capReached t => t.halted = false
  | .stuck _ _ | .refused _ _ => True

theorem drive_flagOk (fuel : Nat) (s : State) : (drive fuel s).flagOk := by
  fun_induction drive fuel s with
  | case1 s hh | case3 fuel s hh => exact hh
  | case2 s hh => exact Bool.eq_false_iff.2 hh
  | case4 fuel s hh t hs ih => exact ih
  | case5 | case6 => trivial

theorem halted_of_drive_ended {fuel : Nat} {s t : State} (h : drive fuel s = .ended t) : t.halted = true := by
  have hok := drive_flagOk fuel s
  rwa [h] at hok

theorem running_of_drive_capReached {fuel : Nat} {s t : State} (h : drive fuel s = .capReached t) :
    t.halted = false := by
  have hok := drive_flagOk fuel s
  rwa [h] at hok

/-- The invariant holds where the loop ends: it holds at the start and every step keeps it. -/
theorem inv_of_drive_ended {fuel : Nat} {s t : State} (hinv : s.inv = true) (h : drive fuel s = .ended t) :
    t.inv = true := by
  fun_induction drive fuel s with
  | case1 | case3 => cases h; exact hinv
  | case4 fuel s hh u hs ih => exact ih (stepKeepsInvariant s u hinv hs) h
  | case2 | case5 | case6 => cases h

/-- A loop that its cap did not stop stops the same way under a larger cap. -/
theorem drive_add_of_not_capReached {fuel : Nat} {s : State} {r : DriveResult} (h : drive fuel s = r)
    (hr : ∀ t, r ≠ .capReached t) (more : Nat) : drive (fuel + more) s = r := by
  fun_induction drive fuel s with
  | case1 s hh => rw [drive_of_halted hh]; exact h
  | case2 s hh => exact absurd h.symm (hr s)
  | case3 fuel s hh => rw [drive_of_halted hh]; exact h
  | case4 fuel s hh t hs ih =>
    rw [Nat.succ_add, drive_succ_of_next hh _ hs]
    exact ih h
  | case5 fuel s hh why hs =>
    rw [Nat.succ_add, drive_succ_of_fault hh _ hs]
    exact h
  | case6 fuel s hh why hs =>
    rw [Nat.succ_add, drive_succ_of_refused hh _ hs]
    exact h

/-- Two caps that do not stop the loop let it stop the same way. -/
theorem drive_unique {n m : Nat} {s : State} {r q : DriveResult} (hn : drive n s = r) (hr : ∀ t, r ≠ .capReached t)
    (hm : drive m s = q) (hq : ∀ t, q ≠ .capReached t) : r = q := by
  rw [← drive_add_of_not_capReached hn hr m, ← drive_add_of_not_capReached hm hq n, Nat.add_comm]

/-- Settles O59: the flag and the invariant along the loop, and the larger cap that changes nothing. -/
theorem driverEndsAtTheHaltFlag : Obligations.DriverEndsAtTheHaltFlag := by
  unfold Obligations.DriverEndsAtTheHaltFlag
  refine ⟨fun fuel s hh => drive_of_halted hh fuel, fun fuel s t hinv h => ?_,
    fun fuel more s t h => drive_add_of_not_capReached h nofun more, fun fuel s t => running_of_drive_capReached,
    fun fuel s r => Iff.rfl, fun s t => ⟨And.left, fun h => ⟨h, nofun⟩⟩, ?_, fun s t h => h.2 t rfl⟩
  · have hhalted := halted_of_drive_ended h
    obtain ⟨_, hreason⟩ := (inv_iff t).1 (inv_of_drive_ended hinv h)
    exact ⟨hhalted, hreason.1 hhalted⟩
  · rintro s r q ⟨⟨n, hn⟩, hr⟩ ⟨⟨m, hm⟩, hq⟩
    exact drive_unique hn hr hm hq

end Sys2Proof.Machine
end
